-- ==== Sys2Proof/Word.lean ====
section
/-! DEFINITION. The two word types of the core (spec 00_scope.md R8, R9). -/

namespace Sys2Proof

/-- A byte is 8 bits, read as unsigned unless a rule says otherwise (R9). -/
abbrev Byte := BitVec 8

/-- A 16-bit word: PC, DPTR, FPC and code addresses (R8, R20). -/
abbrev Word := BitVec 16

end Sys2Proof
end

