-- ==== Sys2Proof/Machine/Flags.lean ====
section
/-! DEFINITION. The one flag, CY = PSW[0] (10_state.md R24-R26, 90_conflicts.md C5), and the sum that decides it
(42_arithmetic.md R130, R131). -/

namespace Sys2Proof.Machine

/-- `zext_9(A) + zext_9(imm8)`: exact, 0..510 (R130). No carry enters (R25). -/
def addSum (a d : Byte) : Nat := a.toNat + d.toNat

/-- The carry out of the exact sum: `sum > 255` (R130). -/
def carryOut (sum : Nat) : Bool := decide (255 < sum)

/-- `sum mod 256` (R130). -/
def trunc8 (sum : Nat) : Byte := BitVec.ofNat 8 sum

/-- PSW.CY, bit 0 (R11, R25). -/
def cyOf (psw : Byte) : Bool := psw.getLsbD 0

/-- `PSW.CY <- c`: bit 0 written, bits 7:1 unchanged (R11, R26). -/
def withCy (psw : Byte) (c : Bool) : Byte := (psw &&& 0xFE) ||| (if c then 0x01 else 0x00)

end Sys2Proof.Machine
end

