-- ==== Sys2Proof/Config.lean ====
section
/-! DEFINITION. What the spec fixes for the core (00_scope.md R8, 20_memory.md R70, 70_reset_and_hazards.md R191),
and the one value it leaves open (20_memory.md R56). -/

namespace Sys2Proof.Config

/-- CODE_SIZE (R8). -/
abbrev codeSize : Nat := 65536

/-- RAM_SIZE (R8). -/
abbrev ramSize : Nat := 256

/-- What every byte of CODE and RAM holds after Reset (R70): the value of an address a memory does not list. -/
abbrev resetByte : Byte := 0x00

/-- The reset value of the stack pointer (R27, R191). -/
abbrev resetSp : Byte := 0x07

/-- The implemented opcodes (R2, R8): NOP, ADD A,#imm, MOV A,#imm, SJMP rel. -/
abbrev implementedOpcodes : List Byte := [0x00, 0x24, 0x74, 0x80]

/-- FREE VALUE: the byte the RAM port returns when its select is "write".
R56 gives the port a returned byte and says for no write what it is; push does not look at it (R57).
Its arguments are the byte stored before, the address and the written byte.
DESIGN CHOICE, safe (log entry 6). -/
opaque ramPortWriteReply : Byte → Byte → Byte → Byte

end Sys2Proof.Config
end

