-- ==== Sys2Proof/Syntax.lean ====
section
/-! DEFINITION. The instructions (spec/opcode_table.json; 30_encoding.md R80-R87) and the assembler's line forms
(30_encoding.md R90). -/

namespace Sys2Proof

/-- One instruction, its operand byte read. The table's 252 UNIMPLEMENTED rows are the one default handler "given the
opcode as context" (R103, R107), so they are one constructor carrying the opcode. DESIGN CHOICE, safe (log entry 1). -/
inductive Instr where
  /-- NOP, opcode 0x00 (R120). -/
  | nop
  /-- ADD A,#imm, opcode 0x24 (R130). -/
  | addAImm (imm8 : Byte)
  /-- MOV A,#imm, opcode 0x74 (R121). -/
  | movAImm (imm8 : Byte)
  /-- SJMP rel, opcode 0x80; `rel8` is read as two's complement (R140). -/
  | sjmpRel (rel8 : Byte)
  /-- The default handler's "instruction": any opcode outside the four (R86, R107). -/
  | unimplemented (opcode : Byte)
  deriving DecidableEq, Repr

/-- The five line forms of the spec's assembler notation (R90). An immediate is a number 0..255, a displacement a number
-128..127; a label stands for an address. -/
inductive AsmLine where
  /-- `NOP` -/
  | nop
  /-- `MOV A,#imm` -/
  | movAImm (imm : Nat)
  /-- `ADD A,#imm` -/
  | addAImm (imm : Nat)
  /-- `SJMP rel` -/
  | sjmpRel (rel : Int)
  /-- `SJMP label`: the label's name and the address it stands for -/
  | sjmpLabel (name : String) (label : Word)
  deriving DecidableEq, Repr

end Sys2Proof
end

