-- ==== Sys2Proof/WellFormed.lean ====
section
/-! DEFINITION. Which terms of Instr stand for an encoding of the table (30_encoding.md R83, R85, R86). -/

namespace Sys2Proof

/-- The only check an instruction needs: an UNIMPLEMENTED opcode is none of the four implemented ones (R86). Every
operand byte is legal (R84). -/
def Instr.wellFormed : Instr → Bool
  | .nop => true
  | .addAImm _ => true
  | .movAImm _ => true
  | .sjmpRel _ => true
  | .unimplemented opcode => !Config.implementedOpcodes.contains opcode

end Sys2Proof
end

