-- ==== Sys2Proof/Decode.lean ====
section
/-! DEFINITION. The decode function D (30_encoding.md R85), the decoder over bytes (R80-R84, R87-R89), and the encoder
written from the same table. -/

namespace Sys2Proof

/-- What the dispatcher gives for an opcode: the instruction itself where its handler fetches no operand (format F1,
R81), or what the handler makes of the operand byte it fetches (format F2, R82). -/
inductive Handler where
  | f1 (i : Instr)
  | f2 (withOperand : Byte → Instr)

/-- The decode function `D` (R85, R102): total, the same in every state (R34, R88); every value outside the four selects
the default handler, which keeps the opcode as its context (R103). -/
def handlerOf (opcode : Byte) : Handler :=
  if opcode = 0x00 then .f1 .nop
  else if opcode = 0x24 then .f2 .addAImm
  else if opcode = 0x74 then .f2 .movAImm
  else if opcode = 0x80 then .f2 .sjmpRel
  else .f1 (.unimplemented opcode)

/-- Why a list of bytes is no instruction followed by others. The machine never meets either: CODE has a byte at every
address (R51) and decoding cannot fail (R88). DESIGN CHOICE, safe (log entry 8). -/
inductive DecodeError where
  /-- the list is empty: no opcode byte -/
  | noOpcodeByte
  /-- the list ends after an opcode of format F2 -/
  | noOperandByte (opcode : Byte)
  deriving DecidableEq, Repr

/-- One instruction off the front of a list of bytes, opcode first, operand second (R80, R89), and the rest. -/
def decode : List Byte → Except DecodeError (Instr × List Byte)
  | [] => .error .noOpcodeByte
  | opcode :: rest =>
    match handlerOf opcode, rest with
    | .f1 i, rest => .ok (i, rest)
    | .f2 _, [] => .error (.noOperandByte opcode)
    | .f2 withOperand, operand :: rest => .ok (withOperand operand, rest)

/-- The bytes of an instruction in increasing address order (R60, R81-R83, R90's encoding column). -/
def encode : Instr → List Byte
  | .nop => [0x00]
  | .addAImm imm8 => [0x24, imm8]
  | .movAImm imm8 => [0x74, imm8]
  | .sjmpRel rel8 => [0x80, rel8]
  | .unimplemented opcode => [opcode]

/-- The length column of R83, in bytes. -/
def instrLength : Instr → Nat
  | .nop => 1
  | .addAImm _ => 2
  | .movAImm _ => 2
  | .sjmpRel _ => 2
  | .unimplemented _ => 1

/-- Two code bytes from a number whose bit 0 is the first byte's least significant bit; every bit from `nbits` up is 0. -/
def tableBytes (nbits w : Nat) : Byte × Byte :=
  (BitVec.ofNat 8 (w % 2 ^ nbits), BitVec.ofNat 8 (w % 2 ^ nbits / 256))

/-- The instruction the decoder reads from an opcode-table word of `nbits` bits. -/
def decodeTableWord (nbits w : Nat) : Option Instr :=
  match decode [(tableBytes nbits w).1, (tableBytes nbits w).2] with
  | .ok (i, _) => some i
  | .error _ => none

end Sys2Proof
end

