-- ==== Sys2Proof/Machine/Operands.lean ====
section
/-! DEFINITION. Operand assembly and address arithmetic (30_encoding.md R84; 00_scope.md R11, R12). -/

namespace Sys2Proof.Machine

/-- `imm8 = byte1`, unsigned and unscaled (R84). -/
def immOperand (byte1 : Byte) : Byte := byte1

/-- `sext_16(rel8)`: the operand byte as a two's-complement displacement (R84). -/
def sext16 (rel8 : Byte) : Word := rel8.signExtend 16

/-- `(PC + sext_16(rel8)) mod 65536`, from the address after the instruction (R140). -/
def jumpTarget (next : Word) (rel8 : Byte) : Word := next + sext16 rel8

/-- The RAM address a push stores to: `(SP + 1) mod 256` (R57). -/
def pushAddress (sp : Byte) : Byte := sp + 1

/-- The RAM address a pop reads: `SP` (R58). -/
def popAddress (sp : Byte) : Byte := sp

/-- SP after a pop: `(SP - 1) mod 256` (R58). -/
def spAfterPop (sp : Byte) : Byte := sp - 1

end Sys2Proof.Machine
end

