-- ==== Sys2Proof/Machine/State.lean ====
section
/-! DEFINITION. The state of the core (10_state.md R20-R37), its reset values (70_reset_and_hazards.md R190, R191), and
the ways a step can stop. -/

namespace Sys2Proof.Machine

/-- CODE or RAM: (address, byte) pairs, addresses strictly rising, no listed byte equal to what an unlisted address
reads as, 0x00 (R70). The form is `Memory.wf`, in Machine/Ops.lean. Log entry 4. -/
abbrev Memory := List Host.Cell

/-- The halt cause (R33, R171). -/
inductive Cause where
  | none
  | unimplementedOpcode
  deriving DecidableEq, Repr

/-- Exactly the elements of R20's table, in its order. "Nothing else is state." -/
structure State where
  /-- the Accumulator (R21) -/
  a : Byte
  /-- B (R22) -/
  b : Byte
  /-- the Program Status Word; CY is bit 0 (R24, R25) -/
  psw : Byte
  /-- the Stack Pointer (R27) -/
  sp : Byte
  /-- the Program Counter (R28) -/
  pc : Word
  /-- the Data Pointer (R31) -/
  dptr : Word
  /-- the Running flag RUN (R32) -/
  run : Bool
  /-- CAUSE of the fault record (R33) -/
  cause : Cause
  /-- FOPC of the fault record (R33) -/
  fopc : Byte
  /-- FPC of the fault record (R33) -/
  fpc : Word
  /-- CODE[0..65535] (R51) -/
  code : Memory
  /-- RAM[0..255] (R53) -/
  ram : Memory
  deriving DecidableEq, Repr

/-- The state right after Reset (R190, R191): every value is the spec's. -/
def State.reset : State where
  a := 0x00
  b := 0x00
  psw := 0x00
  sp := Config.resetSp
  pc := 0x0000
  dptr := 0x0000
  run := true
  cause := .none
  fopc := 0x00
  fpc := 0x0000
  code := []
  ram := []

/-- Why a step stops. -/
inductive Fault where
  /-- Raised by `step` alone, when RUN is false: the core has no step in the Halted state (R110; "stuck",
  93_implementation_defined.md U2). Safe: the state stands still until the host's Reset. Log entry 2. -/
  | halted
  deriving DecidableEq, Repr

/-- Why an instruction has no meaning. -/
inductive Refusal where
  /-- Raised by `exec` for an instruction that has no meaning yet; no arm of this model raises it. Safe. -/
  | notModelled (mnemonic : String)
  deriving DecidableEq, Repr

end Sys2Proof.Machine
end

