-- ==== Sys2Proof/Machine/Ops.lean ====
section
/-! DEFINITION. The operations over memory and registers: memory in its canonical form, the ports (20_memory.md R54-R56),
fetch (40_engine_and_dispatch.md R101), push and pop (20_memory.md R57, R58), Load's write path (R71), and taking the one
exception (60_exceptions.md R176). -/

namespace Sys2Proof.Machine

/-- The canonical form of a memory of `size` bytes: addresses strictly rising and in range, no byte listed that an
unlisted address would read as. -/
abbrev Memory.wf (size : Nat) (m : Memory) : Prop :=
  m.Pairwise (fun x y => x.1 < y.1) ∧ ∀ c ∈ m, c.1 < size ∧ c.2 ≠ Config.resetByte

/-- `S[a]`: the listed byte, else the reset contents (R54, R70). -/
def Memory.read : Memory → Nat → Byte
  | [], _ => Config.resetByte
  | (k, v) :: m, a => if a = k then v else Memory.read m a

/-- `S[a] <- v` (R54), in canonical form: writing the reset byte removes the entry. -/
def Memory.write : Memory → Nat → Byte → Memory
  | [], a, v => if v = Config.resetByte then [] else [(a, v)]
  | (k, w) :: m, a, v =>
    if a < k then (if v = Config.resetByte then (k, w) :: m else (a, v) :: (k, w) :: m)
    else if a = k then (if v = Config.resetByte then m else (a, v) :: m)
    else (k, w) :: Memory.write m a v

/-- `S[a + i] <- bytes[i]` for every i, in rising order (R71's loop). -/
def Memory.writeBytes : Memory → Nat → List Byte → Memory
  | m, _, [] => m
  | m, a, v :: vs => Memory.writeBytes (Memory.write m a v) (a + 1) vs

/-! The register updates, one each. -/

/-- `A <- v` -/
def State.setA (s : State) (v : Byte) : State := { s with a := v }
/-- `PSW <- v` -/
def State.setPsw (s : State) (v : Byte) : State := { s with psw := v }
/-- `SP <- v` -/
def State.setSp (s : State) (v : Byte) : State := { s with sp := v }
/-- `PC <- v`, an ordinary write (R11) -/
def State.setPc (s : State) (v : Word) : State := { s with pc := v }
/-- `RUN <- v` -/
def State.setRun (s : State) (v : Bool) : State := { s with run := v }
/-- The fault record, written whole (R33) -/
def State.setRecord (s : State) (c : Cause) (o : Byte) (p : Word) : State := { s with cause := c, fopc := o, fpc := p }
/-- CODE replaced -/
def State.setCode (s : State) (m : Memory) : State := { s with code := m }
/-- RAM replaced -/
def State.setRam (s : State) (m : Memory) : State := { s with ram := m }

/-- The code read port: `MemRead(CODE, a, 1)` (R54, R56). Total: every address is valid (R51). -/
def codeRead (s : State) (a : Word) : Byte := s.code.read a.toNat

/-- `MemRead(RAM, a, 1)` (R54). Total (R53). -/
def ramRead (s : State) (a : Byte) : Byte := s.ram.read a.toNat

/-- `MemWrite(RAM, a, 1, v)`: "sets RAM[a] <- v and changes nothing else" (R54). -/
def ramWrite (s : State) (a v : Byte) : State := s.setRam (s.ram.write a.toNat v)

/-- The RAM port (R56): an address, a write value and a select (`true` = write), and the byte it returns. A read ignores
the write value; what a write returns is the free value of Config (log entry 6). -/
def ramPort (s : State) (a wdata : Byte) (write : Bool) : Byte × State :=
  if write then (Config.ramPortWriteReply (ramRead s a) a wdata, ramWrite s a wdata) else (ramRead s a, s)

/-- `fetch()` (R101): the byte at PC, then `PC <- (PC + 1) mod 65536`. -/
def fetch (s : State) : Byte × State := (codeRead s s.pc, s.setPc (s.pc + 1))

/-- `push(v)` (R57): SP first, then the store at the new SP; no overflow check. -/
def push (s : State) (v : Byte) : State :=
  (ramPort (s.setSp (pushAddress s.sp)) (pushAddress s.sp) v true).2

/-- `pop()` (R58): RAM at SP, then SP decremented; an "empty" stack is not checked (log entry 11). -/
def pop (s : State) : Byte × State :=
  let r := ramPort s (popAddress s.sp) 0x00 false
  (r.1, r.2.setSp (spAfterPop s.sp))

/-- TAKING THE EXCEPTION: `raise UnimplementedOpcode(opcode, addr)` (R176). The fault record and RUN are written
together (R105); PC is not written, nothing is pushed, no vector is taken. There is no return from it: only the host's
Reset, which is `State.reset`, leaves Halted (R177). -/
def raiseUnimplementedOpcode (opcode : Byte) (addr : Word) (s : State) : State :=
  (s.setRecord .unimplementedOpcode opcode addr).setRun false

/-- A step's fetches (R103, R89): the opcode by `fetch`, its handler by `D`, and the operand, where the handler has one,
by a second `fetch`. The state that comes back has PC past the instruction. DEDUCED, safe (log entry 3): R103 has the
handler call the second `fetch` itself; nothing stands between the two (R105). -/
def fetchInstr (s : State) : Instr × State :=
  match handlerOf (fetch s).1 with
  | .f1 i => (i, (fetch s).2)
  | .f2 withOperand => (withOperand (fetch (fetch s).2).1, (fetch (fetch s).2).2)

/-- Load's write path into CODE (R56, R71): the bytes stored, or `none` where they exceed the capacity. -/
def loadCode (s : State) (bytes : List Byte) (address : Word) : Option State :=
  if address.toNat + bytes.length > Config.codeSize then none
  else some (s.setCode (s.code.writeBytes address.toNat bytes))

end Sys2Proof.Machine
end

