-- ==== Sys2Proof/Machine/Arithmetic.lean ====
section
/-! DEFINITION. ADD A,#imm (42_arithmetic.md). A meaning is entered with PC past the instruction's bytes (log entry 3). -/

namespace Sys2Proof.Machine

/-- ADD A,#imm (R130): the exact sum decides CY, then A takes it modulo 256; PSW[7:1] unchanged. -/
def execAddAImm (imm8 : Byte) (s : State) : Host.Outcome State Fault Refusal :=
  let sum := addSum s.a (immOperand imm8)
  .next ((s.setPsw (withCy s.psw (carryOut sum))).setA (trunc8 sum))

end Sys2Proof.Machine
end

