-- ==== Sys2Proof/Machine/ControlTransfer.lean ====
section
/-! DEFINITION. SJMP rel (43_control_transfer.md). A meaning is entered with PC past the instruction's bytes
(log entry 3). -/

namespace Sys2Proof.Machine

/-- SJMP rel (R140): `PC <- (PC + sext_16(rel8)) mod 65536`, PC being the address after the instruction; no flag. -/
def execSjmpRel (rel8 : Byte) (s : State) : Host.Outcome State Fault Refusal := .next (s.setPc (jumpTarget s.pc rel8))

end Sys2Proof.Machine
end

