-- ==== Sys2Proof/Machine/DataTransfer.lean ====
section
/-! DEFINITION. NOP and MOV A,#imm (41_nop_and_move.md). A meaning is entered with PC past the instruction's bytes
(log entry 3). -/

namespace Sys2Proof.Machine

/-- NOP (R120): "nothing; the opcode fetch already set PC". -/
def execNop (s : State) : Host.Outcome State Fault Refusal := .next s

/-- MOV A,#imm (R121): `A <- imm8`; no flag. -/
def execMovAImm (imm8 : Byte) (s : State) : Host.Outcome State Fault Refusal := .next (s.setA (immOperand imm8))

end Sys2Proof.Machine
end

