-- ==== Sys2Proof/Machine/DefaultHandler.lean ====
section
/-! DEFINITION. The default handler of the 252 unimplemented opcodes (40_engine_and_dispatch.md R107, R108). -/

namespace Sys2Proof.Machine

/-- UNIMPLEMENTED (R107): it fetches nothing more and takes the exception, reporting `(PC - 1) mod 65536`, the opcode's
own address. PC keeps the fetch's advance (90_conflicts.md C1, log entry 5). A NEXT state, in which RUN is false. -/
def execUnimplemented (opcode : Byte) (s : State) : Host.Outcome State Fault Refusal :=
  .next (raiseUnimplementedOpcode opcode (s.pc - 1) s)

end Sys2Proof.Machine
end

