-- ==== Sys2Proof/Machine/Dispatch.lean ====
section
/-! DEFINITION. One arm per instruction. -/

namespace Sys2Proof.Machine

def exec (i : Instr) (s : State) : Host.Outcome State Fault Refusal :=
  match i with
  | .nop => Sys2Proof.Machine.execNop s
  | .addAImm imm8 => Sys2Proof.Machine.execAddAImm imm8 s
  | .movAImm imm8 => Sys2Proof.Machine.execMovAImm imm8 s
  | .sjmpRel rel8 => Sys2Proof.Machine.execSjmpRel rel8 s
  | .unimplemented opcode => Sys2Proof.Machine.execUnimplemented opcode s

end Sys2Proof.Machine
end

