-- ==== Sys2Proof/Machine/Step.lean ====
section
/-! DEFINITION. One step of the core (40_engine_and_dispatch.md R103, R110, R111). -/

namespace Sys2Proof.Machine

/-- One step: valid only in the Running state (R103); in Halted the core has none (R110, log entry 2). -/
def step (s : State) : Host.Outcome State Fault Refusal :=
  if s.run then exec (fetchInstr s).1 (fetchInstr s).2 else .fault .halted

/-- `s` with an opcode-table word stored where the next step fetches, two bytes at PC and PC + 1, and RUN true, without
which there is no step. It stands for the host's Load (R71, R195); log entry 7. -/
def State.withFetchWord (s : State) (nbits w : Nat) : State :=
  (s.setCode ((s.code.write s.pc.toNat (tableBytes nbits w).1).write (s.pc + 1).toNat (tableBytes nbits w).2)).setRun true

end Sys2Proof.Machine
end

