-- ==== Sys2Proof/Machine/Assembler.lean ====
section
/-! DEFINITION. The spec's assembler notation (30_encoding.md R90, R91): the encoding of each line form at an address,
and its text. The notation has no effect on the core (92_eei_decisions.md D17). -/

namespace Sys2Proof.Machine

/-- `d = ((label - (p + 2) + 32768) mod 65536) - 32768`, the signed wrap-around distance (R90). -/
def labelDistance (p label : Word) : Int :=
  ((label.toNat : Int) - ((p.toNat : Int) + 2) + 32768) % 65536 - 32768

/-- The instruction of an SJMP by a signed distance: its two's-complement byte, where -128 ≤ d ≤ 127 (R90). -/
def sjmpOf (d : Int) : Option Instr :=
  if -128 ≤ d ∧ d ≤ 127 then some (.sjmpRel (BitVec.ofInt 8 d)) else none

/-- The instruction a line at address `p` stands for; `none` where R90 says the form is not valid. -/
def assembleLine (p : Word) : AsmLine → Option Instr
  | .nop => some .nop
  | .movAImm imm => if imm ≤ 255 then some (.movAImm (BitVec.ofNat 8 imm)) else none
  | .addAImm imm => if imm ≤ 255 then some (.addAImm (BitVec.ofNat 8 imm)) else none
  | .sjmpRel rel => sjmpOf rel
  | .sjmpLabel _ label => sjmpOf (labelDistance p label)

/-- `0x` and two hexadecimal digits. DESIGN CHOICE, safe: capitals, two digits, a sign before a positive displacement (log entry 12). -/
def hexByte (n : Nat) : String :=
  "0x" ++ String.ofList [(Nat.digitChar (n / 16)).toUpper, (Nat.digitChar (n % 16)).toUpper]

/-- The text of a line (R90's syntax column). -/
def lineText : AsmLine → String
  | .nop => "NOP"
  | .movAImm imm => "MOV A,#" ++ hexByte imm
  | .addAImm imm => "ADD A,#" ++ hexByte imm
  | .sjmpRel rel => "SJMP " ++ (if 0 < rel then "+" else "") ++ toString rel
  | .sjmpLabel name _ => "SJMP " ++ name

end Sys2Proof.Machine
end

