-- ==== Sys2Proof/Machine/Interface.lean ====
section
/-! DEFINITION. What the host sends and gets back (50_interfaces.md R150-R156), and the codes (60_exceptions.md R171). -/

namespace Sys2Proof.Machine

/-- The elements Inspect can read: every one of R20's table (R156). -/
inductive Element where
  | a | b | psw | sp | pc | dptr | run | cause | fopc | fpc
  | code (address : Word)
  | ram (address : Byte)
  deriving DecidableEq, Repr

/-- A value Inspect gives back, of the element's own width. -/
inductive Value where
  | byte (v : Byte)
  | word (v : Word)
  | flag (v : Bool)
  | cause (v : Cause)
  deriving DecidableEq, Repr

/-- The five commands, and no other (R150). -/
inductive Command where
  | reset
  | load (bytes : List Byte) (address : Word)
  | step
  | run (maxSteps : Nat)
  | inspect (elements : List Element)
  deriving DecidableEq, Repr

/-- The result of a Load (R71, R171). -/
inductive LoadResult where
  | ok
  | capacityExceeded
  deriving DecidableEq, Repr

/-- The status a Step gives back (R153, R171). -/
inductive StepStatus where
  | running
  | halted
  deriving DecidableEq, Repr

/-- The second part of the pair a Run gives back (R106, R171). -/
inductive RunStatus where
  | budgetExhausted
  | halted
  deriving DecidableEq, Repr

/-- What the host gets back, in the form R150's table gives each command. -/
inductive Reply where
  /-- Reset: nothing -/
  | nothing
  | load (result : LoadResult)
  | step (status : StepStatus)
  | run (steps : Nat) (status : RunStatus)
  | inspect (values : List Value)
  deriving DecidableEq, Repr

/-- `run(max_steps)`: the steps executed, how the run ended, and the state it left (R106, R109). -/
structure RunResult where
  steps : Nat
  status : RunStatus
  state : State
  deriving DecidableEq, Repr

end Sys2Proof.Machine
end

