-- ==== Sys2Proof/Machine/Commands.lean ====
section
/-! DEFINITION. The host's five commands, each one atomic transition (50_interfaces.md R150-R159;
40_engine_and_dispatch.md R106, R109, R110), and several instances (R158). -/

namespace Sys2Proof.Machine

/-- CAUSE as a number (R171). -/
def causeCode : Cause → Nat
  | .none => 0
  | .unimplementedOpcode => 1

/-- A Load result as a number (R171). -/
def loadResultCode : LoadResult → Nat
  | .ok => 0
  | .capacityExceeded => 1

/-- A Step status as a number (R171). -/
def stepStatusCode : StepStatus → Nat
  | .running => 0
  | .halted => 1

/-- A Run status as a number (R171). -/
def runStatusCode : RunStatus → Nat
  | .budgetExhausted => 0
  | .halted => 1

/-- The loop of R106: the steps executed and the state left. A step of a running core always answers a next state
(`Laws`: step_running), so the arms that answer otherwise only make the function total; they stop the loop. -/
def runLoop : Nat → State → Nat × State
  | 0, s => (0, s)
  | budget + 1, s =>
    if s.run then
      match step s with
      | .next t =>
        let r := runLoop budget t
        (r.1 + 1, r.2)
      | .fault _ => (0, s)
      | .refused _ => (0, s)
    else (0, s)

/-- `run(max_steps)` with the pair it returns (R106, R109, R154). The counter is no state of the core. -/
def runFor (maxSteps : Nat) (s : State) : RunResult :=
  let r := runLoop maxSteps s
  { steps := r.1, status := if r.2.run then .budgetExhausted else .halted, state := r.2 }

/-- Step: one step when RUN is true, nothing otherwise, and the status after it (R110, R153). -/
def stepCommand (s : State) : State × StepStatus :=
  let t := match step s with
    | .next t => t
    | .fault _ => s
    | .refused _ => s
  (t, if t.run then .running else .halted)

/-- Load: all of the bytes or none of them (R71, R155). -/
def loadCommand (bytes : List Byte) (address : Word) (s : State) : State × LoadResult :=
  match loadCode s bytes address with
  | some t => (t, .ok)
  | none => (s, .capacityExceeded)

/-- The value of one element (R156). -/
def inspectElement (s : State) : Element → Value
  | .a => .byte s.a
  | .b => .byte s.b
  | .psw => .byte s.psw
  | .sp => .byte s.sp
  | .pc => .word s.pc
  | .dptr => .word s.dptr
  | .run => .flag s.run
  | .cause => .cause s.cause
  | .fopc => .byte s.fopc
  | .fpc => .word s.fpc
  | .code address => .byte (codeRead s address)
  | .ram address => .byte (ramRead s address)

/-- Reset, from any state (R152, R190, R192); power-on performs it too (R194). -/
def resetCommand (_ : State) : State := State.reset

/-- One command of the host: the state after it and what the host gets back (R150). -/
def command (c : Command) (s : State) : State × Reply :=
  match c with
  | .reset => (resetCommand s, .nothing)
  | .load bytes address => ((loadCommand bytes address s).1, .load (loadCommand bytes address s).2)
  | .step => ((stepCommand s).1, .step (stepCommand s).2)
  | .run maxSteps => ((runFor maxSteps s).state, .run (runFor maxSteps s).steps (runFor maxSteps s).status)
  | .inspect elements => (s, .inspect (elements.map (inspectElement s)))

/-- Commands one after another, each complete before the next begins (R7, R151). -/
def session : List Command → State → State × List Reply
  | [], s => (s, [])
  | c :: cs, s =>
    let r := command c s
    let rest := session cs r.1
    (rest.1, r.2 :: rest.2)

/-- A command to instance `k` of several: it acts on that one alone (R158, R183). A host that names an instance that is
not there gets no reply; DESIGN CHOICE, safe (log entry 10). -/
def commandAt (k : Nat) (c : Command) (instances : List State) : List State × Option Reply :=
  match instances[k]? with
  | some s => (instances.set k (command c s).1, some (command c s).2)
  | none => (instances, none)

end Sys2Proof.Machine
end

