-- ==== Sys2Proof/Safety.lean ====
section
/-! DEFINITION. What the claims call a good state, a reachable state and a safe run. -/

namespace Sys2Proof.Machine

/-- Both memories are in their canonical form: what makes equal memories equal data. -/
abbrev Canonical (s : State) : Prop := Memory.wf Config.codeSize s.code ∧ Memory.wf Config.ramSize s.ram

/-- The invariant of every state the host can bring about from Reset. -/
structure Inv (s : State) : Prop where
  /-- both memories are canonical -/
  canonical : Canonical s
  /-- B is 0 (R22) -/
  b_zero : s.b = 0
  /-- DPTR is 0 (R31) -/
  dptr_zero : s.dptr = 0
  /-- SP keeps its reset value (R27) -/
  sp_reset : s.sp = Config.resetSp
  /-- RAM keeps its reset contents (R59) -/
  ram_zero : ∀ a : Byte, ramRead s a = 0
  /-- PSW[7:1] = 0 (R26) -/
  psw_reserved : ∀ i, 1 ≤ i → s.psw.getLsbD i = false
  /-- a running core has no fault on record (R33, R178) -/
  running_record : s.run = true → s.cause = .none ∧ s.fopc = 0 ∧ s.fpc = 0
  /-- a halted core has a whole fault record, its opcode is no implemented one, and PC stands just past the faulting
  address (R107, R173, R176) -/
  halted_record : s.run = false →
    s.cause = .unimplementedOpcode ∧ s.fopc ∉ Config.implementedOpcodes ∧ s.pc = s.fpc + 1

/-- A state some session of host commands brings about from Reset (R150, R151, R194). -/
def Reachable (s : State) : Prop := ∃ cs, (session cs State.reset).1 = s

/-- A run that does not halt within its budget (R109). -/
def RunsFor (n : Nat) (s : State) : Prop := (runFor n s).status = .budgetExhausted

end Sys2Proof.Machine
end

