-- ==== Sys2Proof/Certificates/Slice0/Obligations.lean ====
section
/-! DEFINITION. The statements for the provers. A quantified state is any state, reachable or not, unless a premise says
otherwise. -/

namespace Sys2Proof.Statements

open Sys2Proof.Machine

/-- The code byte at PC. -/
def opcodeAt (s : State) : Byte := codeRead s s.pc

/-- The code byte after it, modulo 65536. -/
def operandAt (s : State) : Byte := codeRead s (s.pc + 1)

/-- Every byte of CODE and of RAM reads as before. -/
def SameMemory (s t : State) : Prop :=
  (∀ a : Word, codeRead t a = codeRead s a) ∧ (∀ a : Byte, ramRead t a = ramRead s a)

/-- What ADD A,#imm does to A and PSW (R130), in exact arithmetic, PC and all else left aside. -/
def AddEffect (s : State) (d : Byte) (t : State) : Prop :=
  t.a.toNat = (s.a.toNat + d.toNat) % 256 ∧
  (t.psw.getLsbD 0 = true ↔ 255 < s.a.toNat + d.toNat) ∧
  (∀ i, 1 ≤ i → i ≤ 7 → t.psw.getLsbD i = s.psw.getLsbD i) ∧
  t = { s with a := t.a, psw := t.psw, pc := t.pc }

/-- R103's pseudocode read off line by line: fetch, select the handler by R85's D, run the handler of R107, R120, R121,
R130 or R140, which fetches its own operand; each result is written in exact integer arithmetic (R12). -/
def protocolStep (s : State) : State :=
  let opcode := codeRead s s.pc
  let s := { s with pc := BitVec.ofNat 16 ((s.pc.toNat + 1) % 65536) }
  let operand := codeRead s s.pc
  let s2 := { s with pc := BitVec.ofNat 16 ((s.pc.toNat + 1) % 65536) }
  if opcode = 0x00 then s
  else if opcode = 0x24 then
    { s2 with
      a := BitVec.ofNat 8 ((s2.a.toNat + operand.toNat) % 256)
      psw := BitVec.ofNat 8 (s2.psw.toNat / 2 * 2 + if s2.a.toNat + operand.toNat > 255 then 1 else 0) }
  else if opcode = 0x74 then { s2 with a := operand }
  else if opcode = 0x80 then { s2 with pc := BitVec.ofInt 16 (((s2.pc.toNat : Int) + operand.toInt) % 65536) }
  else
    { s with
      cause := .unimplementedOpcode
      fopc := opcode
      fpc := BitVec.ofInt 16 (((s.pc.toNat : Int) - 1) % 65536)
      run := false }

end Sys2Proof.Statements

open Sys2Proof Sys2Proof.Machine Sys2Proof.Statements

/-! ## Reset and the invariant -/

/-- R191, R192, R70: Reset, from every prior state, leaves every element at its reset value. -/
def Obligations.ResetSetsEveryElementFromAnyState : Prop :=
  ∀ s : State, ∃ t, command .reset s = (t, .nothing) ∧
    t.a = 0x00 ∧ t.b = 0x00 ∧ t.psw = 0x00 ∧ t.sp = 0x07 ∧ t.pc = 0x0000 ∧ t.dptr = 0x0000 ∧ t.run = true ∧
    t.cause = .none ∧ t.fopc = 0x00 ∧ t.fpc = 0x0000 ∧
    (∀ a : Word, codeRead t a = 0x00) ∧ (∀ a : Byte, ramRead t a = 0x00)

/-- The model's invariant holds of the reset state. -/
def Obligations.ResetStateMeetsInvariant : Prop := Inv State.reset

/-- Every step keeps the invariant (R22, R26, R27, R31, R33, R59, R107, R178 as inferences of the spec). -/
def Obligations.StepKeepsInvariant : Prop := ∀ s t : State, Inv s → step s = .next t → Inv t

/-- Every command of the host keeps the invariant: Reset, Load, Step, Run and Inspect. -/
def Obligations.HostCommandKeepsInvariant : Prop := ∀ (c : Command) (s : State), Inv s → Inv (command c s).1

/-- What R22, R26, R27, R31 and R59 derive of every reachable state, with the halt record of R33 and R178: over every
session of host commands from Reset. -/
def Obligations.ReachableStatesKeepUnusedElements : Prop :=
  ∀ s : State, Reachable s →
    s.b = 0x00 ∧ s.dptr = 0x0000 ∧ s.sp = 0x07 ∧ (∀ a : Byte, ramRead s a = 0x00) ∧ (s.psw = 0x00 ∨ s.psw = 0x01) ∧
    (s.run = true → s.cause = .none ∧ s.fopc = 0x00 ∧ s.fpc = 0x0000) ∧
    (s.run = false → s.cause = .unimplementedOpcode ∧ s.fopc ≠ 0x00 ∧ s.fopc ≠ 0x24 ∧ s.fopc ≠ 0x74 ∧ s.fopc ≠ 0x80)

/-- The canonical form of both memories (the model's own, log entry 4) is kept by a step, a command, a push and a pop. -/
def Obligations.CanonicalMemoriesAreKept : Prop :=
  ∀ s : State, Canonical s →
    (∀ t, step s = .next t → Canonical t) ∧ (∀ c, Canonical (command c s).1) ∧
    (∀ v, Canonical (push s v)) ∧ Canonical (pop s).2

/-- Canonical memories that read alike everywhere are the same data (the model's own form, log entry 4). -/
def Obligations.CanonicalMemoriesThatReadAlikeAreEqual : Prop :=
  ∀ s t : State, Canonical s → Canonical t → SameMemory s t → s.code = t.code ∧ s.ram = t.ram

/-! ## Encoding -/

/-- Decode of encode: every well-formed instruction, at every operand, comes back, and the bytes after it are left. -/
def Obligations.DecodeInvertsEncode : Prop :=
  ∀ (i : Instr) (rest : List Byte), i.wellFormed = true → decode (encode i ++ rest) = .ok (i, rest)

/-- The other way: what decodes is well formed and the bytes it took are its encoding, 1 or 2 of them (R80). -/
def Obligations.DecodedBytesAreTheEncoding : Prop :=
  ∀ (bytes rest : List Byte) (i : Instr), decode bytes = .ok (i, rest) →
    i.wellFormed = true ∧ bytes = encode i ++ rest ∧ (encode i).length = instrLength i ∧
    (instrLength i = 1 ∨ instrLength i = 2)

/-- R85: the five lines of D, over whatever bytes follow. -/
def Obligations.DispatchMapIsTheTable : Prop :=
  ∀ rest : List Byte,
    decode (0x00 :: rest) = .ok (.nop, rest) ∧
    (∀ ii, decode (0x24 :: ii :: rest) = .ok (.addAImm ii, rest)) ∧
    (∀ ii, decode (0x74 :: ii :: rest) = .ok (.movAImm ii, rest)) ∧
    (∀ rr, decode (0x80 :: rr :: rest) = .ok (.sjmpRel rr, rest)) ∧
    (∀ x, x ≠ 0x00 → x ≠ 0x24 → x ≠ 0x74 → x ≠ 0x80 → decode (x :: rest) = .ok (.unimplemented x, rest))

/-- A few words written out from the encoding column of the table decode to their instructions. -/
def Obligations.TableWordsDecode : Prop :=
  decode [0b00000000] = .ok (.nop, []) ∧
  decode [0b00100100, 0b00000011] = .ok (.addAImm 3, []) ∧
  decode [0b01110100, 0b00000101] = .ok (.movAImm 5, []) ∧
  decode [0b10000000, 0b11111110] = .ok (.sjmpRel (-2), []) ∧
  decode [0b10100101] = .ok (.unimplemented 0xA5, [])

/-- R90's label form: it is valid exactly when some displacement byte reaches the label, and the SJMP it gives reaches
it from the line's address, which is two before the address after the instruction. -/
def Obligations.LabelFormReachesItsLabel : Prop :=
  ∀ (p label : Word) (name : String),
    (∀ i, assembleLine p (.sjmpLabel name label) = some i →
      ∀ s : State, s.pc = p + 2 → ∃ t, exec i s = .next t ∧ t.pc = label) ∧
    (assembleLine p (.sjmpLabel name label) = none ↔
      ∀ r : Int, -128 ≤ r → r ≤ 127 → ((p.toNat : Int) + 2 + r) % 65536 ≠ label.toNat)

/-! ## Fetch and the step -/

/-- R101: fetch gives the byte at PC and advances PC by one modulo 65536, nothing else; and it is the sole way a step
consumes an instruction: one fetch, or two where the first byte has an operand, and nothing else stands before the
handler. That the meaning is entered after both fetches is the model's (log entry 3, DEDUCED), and so is the named
rejection by which a truncated list shows that an opcode has an operand (log entry 8, DESIGN CHOICE). -/
def Obligations.FetchIsTheSoleWayInstructionsAreConsumed : Prop :=
  (∀ s : State, (fetch s).1 = codeRead s s.pc ∧ (fetch s).2.pc.toNat = (s.pc.toNat + 1) % 65536 ∧
    (fetch s).2 = { s with pc := (fetch s).2.pc }) ∧
  (∀ s : State, s.run = true →
    (∃ i, decode [(fetch s).1] = .ok (i, []) ∧ step s = exec i (fetch s).2) ∨
    (∃ i, decode [(fetch s).1] = .error (.noOperandByte (fetch s).1) ∧
      decode [(fetch s).1, (fetch (fetch s).2).1] = .ok (i, []) ∧ step s = exec i (fetch (fetch s).2).2))

/-- A step of a running core runs the instruction its bytes decode to, with PC moved past them. -/
def Obligations.StepRunsTheDecodedInstruction : Prop :=
  ∀ (s : State) (i : Instr) (rest : List Byte), s.run = true →
    decode [codeRead s s.pc, codeRead s (s.pc + 1)] = .ok (i, rest) →
    step s = exec i { s with pc := s.pc + BitVec.ofNat 16 (instrLength i) }

/-- A step of a running core IS the protocol of R103, with D of R85 and the handlers' pseudocode of R107, R120, R121,
R130 and R140. -/
def Obligations.StepFollowsTheProtocol : Prop :=
  ∀ s : State, s.run = true → step s = .next (protocolStep s)

/-- In Halted the core has no step (R110), which the model answers as the fault halted (log entry 2, DEDUCED); a Step
command changes nothing and reports HALTED (R110, R153), and a Run executes no step and answers (0, HALTED) (R106). -/
def Obligations.HaltedCoreTakesNoStep : Prop :=
  ∀ s : State, s.run = false →
    step s = .fault .halted ∧ command .step s = (s, .step .halted) ∧ ∀ n, command (.run n) s = (s, .run 0 .halted)

/-- R172: a step halts exactly on the other 252 opcode values, whatever the state. -/
def Obligations.OnlyUnimplementedOpcodesHalt : Prop :=
  ∀ s : State, s.run = true → ∃ t, step s = .next t ∧
    (t.run = false ↔ opcodeAt s ≠ 0x00 ∧ opcodeAt s ≠ 0x24 ∧ opcodeAt s ≠ 0x74 ∧ opcodeAt s ≠ 0x80) ∧
    (t.run = true → t.cause = s.cause ∧ t.fopc = s.fopc ∧ t.fpc = s.fpc)

/-- No step writes B, SP, DPTR, or a byte of CODE or RAM (R22, R31, R51, R59, R186). -/
def Obligations.NoStepWritesUnusedStateOrMemory : Prop :=
  ∀ s t : State, step s = .next t → t.b = s.b ∧ t.sp = s.sp ∧ t.dptr = s.dptr ∧ SameMemory s t ∧
    (∀ i, 1 ≤ i → i ≤ 7 → t.psw.getLsbD i = s.psw.getLsbD i)

/-- A step looks at no byte of CODE but the instruction's own: with any other CODE that holds the same opcode byte and,
where the opcode has an operand, the same operand byte, it does the same (R80, R87). -/
def Obligations.StepSeesOnlyItsInstructionBytes : Prop :=
  ∀ (s : State) (m : Memory), s.run = true → codeRead { s with code := m } s.pc = opcodeAt s →
    (opcodeAt s = 0x24 ∨ opcodeAt s = 0x74 ∨ opcodeAt s = 0x80 → codeRead { s with code := m } (s.pc + 1) = operandAt s) →
    ∃ t, step s = .next t ∧ step { s with code := m } = .next { t with code := m }

/-- No instruction reads PSW (R25), B, SP, DPTR, RAM or the fault record (R20): whatever they hold, a step does the same
to A, PC and RUN, and writes the same CY (ADD) or the same fault record (a halt). -/
def Obligations.NoInstructionReadsUnusedState : Prop :=
  ∀ (s : State) (psw b sp fopc : Byte) (dptr fpc : Word) (cause : Cause) (ram : Memory), s.run = true →
    ∃ t u, step s = .next t ∧
      step { s with psw := psw, b := b, sp := sp, fopc := fopc, dptr := dptr, fpc := fpc, cause := cause, ram := ram } = .next u ∧
      u.a = t.a ∧ u.pc = t.pc ∧ u.run = t.run ∧
      (t.run = false → u.cause = t.cause ∧ u.fopc = t.fopc ∧ u.fpc = t.fpc) ∧
      (opcodeAt s = 0x24 → u.psw.getLsbD 0 = t.psw.getLsbD 0) ∧ (opcodeAt s ≠ 0x24 → u.psw = psw)

/-- `withFetchWord` stores a table word where the next step fetches it: that step runs the decoded instruction (the
model's own interface, log entry 7). -/
def Obligations.FetchWordRunsTheDecodedWord : Prop :=
  ∀ (s : State) (nbits w : Nat) (i : Instr), Canonical s → decodeTableWord nbits w = some i →
    step (s.withFetchWord nbits w) =
      exec i { s.withFetchWord nbits w with pc := s.pc + BitVec.ofNat 16 (instrLength i) }

/-! ## The instructions -/

/-- The meanings of the four implemented instructions answer a next state in every state, at every operand. The entry
convention (PC past the instruction's bytes) is the model's, log entry 3; the step statements below do not rest on it. -/
def Obligations.ImplementedInstructionsComplete : Prop :=
  (∀ s : State, exec .nop s = .next s) ∧
  (∀ (imm8 : Byte) (s : State), exec (.movAImm imm8) s = .next { s with a := imm8 }) ∧
  (∀ (imm8 : Byte) (s : State), ∃ t, exec (.addAImm imm8) s = .next t ∧ AddEffect s imm8 t ∧ t.pc = s.pc) ∧
  (∀ (rel8 : Byte) (s : State), ∃ t, exec (.sjmpRel rel8) s = .next t ∧
    (t.pc.toNat : Int) = ((s.pc.toNat : Int) + rel8.toInt) % 65536 ∧ t = { s with pc := t.pc })

/-- R120: NOP as a step, and its corner case of a zero-filled CODE. -/
def Obligations.NopOnlyAdvancesPc : Prop :=
  (∀ s : State, s.run = true → opcodeAt s = 0x00 →
    ∃ t, step s = .next t ∧ t.pc.toNat = (s.pc.toNat + 1) % 65536 ∧ t = { s with pc := t.pc }) ∧
  (∀ (n : Nat) (s : State), n = 65536 → s.run = true → (∀ a : Word, codeRead s a = 0x00) →
    runFor n s = ⟨n, .budgetExhausted, s⟩)

/-- R121: MOV A,#imm as a step. -/
def Obligations.MovWritesTheImmediate : Prop :=
  ∀ s : State, s.run = true → opcodeAt s = 0x74 →
    ∃ t, step s = .next t ∧ t.a = operandAt s ∧ t.pc.toNat = (s.pc.toNat + 2) % 65536 ∧ t = { s with a := t.a, pc := t.pc }

/-- R130: ADD A,#imm as a step. -/
def Obligations.AddWritesSumAndCarry : Prop :=
  ∀ s : State, s.run = true → opcodeAt s = 0x24 →
    ∃ t, step s = .next t ∧ AddEffect s (operandAt s) t ∧ t.pc.toNat = (s.pc.toNat + 2) % 65536

/-- R140: SJMP rel as a step, from its own address; -2 is its own address again. -/
def Obligations.SjmpJumpsByTheSignedDisplacement : Prop :=
  ∀ s : State, s.run = true → opcodeAt s = 0x80 →
    ∃ t, step s = .next t ∧ (t.pc.toNat : Int) = ((s.pc.toNat : Int) + 2 + (operandAt s).toInt) % 65536 ∧
      t = { s with pc := t.pc } ∧ (operandAt s = 0xFE → t = s)

/-- R107: the default handler as a step. The fault record holds the opcode and its own address, RUN is false, PC keeps
the fetch's advance, and everything else is as it was; a zero-filled CODE never reaches it. -/
def Obligations.UnimplementedOpcodeHaltsWithItsRecord : Prop :=
  (∀ s : State, s.run = true →
    opcodeAt s ≠ 0x00 → opcodeAt s ≠ 0x24 → opcodeAt s ≠ 0x74 → opcodeAt s ≠ 0x80 →
    ∃ t, step s = .next t ∧ t.pc.toNat = (s.pc.toNat + 1) % 65536 ∧
      t = { s with pc := t.pc, run := false, cause := .unimplementedOpcode, fopc := opcodeAt s, fpc := s.pc }) ∧
  (∀ s : State, s.run = true → (∀ a : Word, codeRead s a = 0x00) → ∃ t, step s = .next t ∧ t.run = true)

/-- R176 at the handler: entered with PC after the opcode, it records `(PC - 1) mod 65536` and changes nothing but the
fault record and RUN, PC included. -/
def Obligations.DefaultHandlerWritesRecordAndRunAlone : Prop :=
  ∀ (opcode : Byte) (s : State), ∃ t, exec (.unimplemented opcode) s = .next t ∧
    (t.fpc.toNat : Int) = ((s.pc.toNat : Int) - 1) % 65536 ∧
    t = { s with run := false, cause := .unimplementedOpcode, fopc := opcode, fpc := t.fpc }

/-- FRAME of the four implemented instructions: register and flag forms, none stores. A changes under MOV and ADD alone,
PSW under ADD alone and in bit 0 alone, and PC under SJMP alone, a meaning being entered with PC past the instruction's
bytes (log entry 3). -/
def Obligations.ImplementedInstructionsFrame : Prop :=
  ∀ (i : Instr) (s t : State), (∀ o, i ≠ .unimplemented o) → exec i s = .next t →
    t.b = s.b ∧ t.sp = s.sp ∧ t.dptr = s.dptr ∧ t.run = s.run ∧ t.cause = s.cause ∧ t.fopc = s.fopc ∧ t.fpc = s.fpc ∧
    ((∀ d, i ≠ .addAImm d ∧ i ≠ .movAImm d) → t.a = s.a) ∧
    ((∀ d, i ≠ .addAImm d) → t.psw = s.psw) ∧
    ((∀ r, i ≠ .sjmpRel r) → t.pc = s.pc) ∧
    (∀ k, 1 ≤ k → k ≤ 7 → t.psw.getLsbD k = s.psw.getLsbD k) ∧
    SameMemory s t

/-- FRAME of the default handler: A, B, PSW, SP, DPTR, PC and every byte of memory stay. -/
def Obligations.DefaultHandlerFrame : Prop :=
  ∀ (opcode : Byte) (s t : State), exec (.unimplemented opcode) s = .next t →
    t.a = s.a ∧ t.b = s.b ∧ t.psw = s.psw ∧ t.sp = s.sp ∧ t.dptr = s.dptr ∧ t.pc = s.pc ∧ SameMemory s t

/-! ## The stack primitives and memory -/

/-- R57: push. The store goes to the address the model's own `pushAddress` gives; SP becomes it; every other byte of RAM,
all of CODE and every other register stay. -/
def Obligations.PushStoresAtTheIncrementedPointer : Prop :=
  ∀ (s : State) (v : Byte), Canonical s →
    (pushAddress s.sp).toNat = (s.sp.toNat + 1) % 256 ∧
    (push s v).sp = pushAddress s.sp ∧
    ramRead (push s v) (pushAddress s.sp) = v ∧
    (∀ a, a ≠ pushAddress s.sp → ramRead (push s v) a = ramRead s a) ∧
    push s v = { s with sp := (push s v).sp, ram := (push s v).ram }

/-- R58: pop. The byte at SP, unchecked, and SP decremented modulo 256; nothing else. -/
def Obligations.PopReadsThenDecrements : Prop :=
  ∀ s : State, (pop s).1 = ramRead s s.sp ∧
    ((pop s).2.sp.toNat : Int) = ((s.sp.toNat : Int) - 1) % 256 ∧
    (pop s).2 = { s with sp := (pop s).2.sp }

/-- A pop undoes a push: the byte comes back and SP with it, from every SP, the wrap at 0xFF included. -/
def Obligations.PopReturnsThePushedByte : Prop :=
  ∀ (s : State) (v : Byte), Canonical s →
    (pop (push s v)).1 = v ∧ (pop (push s v)).2.sp = s.sp ∧
    (∀ a, a ≠ s.sp + 1 → ramRead (pop (push s v)).2 a = ramRead s a)

/-- R54: a RAM write sets its byte and changes nothing else. -/
def Obligations.RamWriteSetsItsByteAlone : Prop :=
  ∀ (s : State) (a v : Byte), Canonical s →
    ramRead (ramWrite s a v) a = v ∧ (∀ b, b ≠ a → ramRead (ramWrite s a v) b = ramRead s b) ∧
    ramWrite s a v = { s with ram := (ramWrite s a v).ram }

/-! ## The host's commands -/

/-- R71: a Load that exceeds the capacity writes nothing; one that fits stores its bytes, and nothing else changes; a
zero-length load changes nothing. -/
def Obligations.LoadStoresAllBytesOrNone : Prop :=
  ∀ (bytes : List Byte) (address : Word) (s : State), Canonical s →
    (address.toNat + bytes.length > 65536 → command (.load bytes address) s = (s, .load .capacityExceeded)) ∧
    (address.toNat + bytes.length ≤ 65536 → ∃ t, command (.load bytes address) s = (t, .load .ok) ∧
      (∀ i (hi : i < bytes.length), codeRead t (BitVec.ofNat 16 (address.toNat + i)) = bytes[i]) ∧
      (∀ a : Word, a.toNat < address.toNat ∨ address.toNat + bytes.length ≤ a.toNat → codeRead t a = codeRead s a) ∧
      t = { s with code := t.code } ∧ (bytes = [] → t = s))

/-- R68, R198: the next fetch after a Load returns the loaded byte, in any execution state, wherever PC stands among
them. -/
def Obligations.NextFetchSeesTheLoad : Prop :=
  ∀ (bytes : List Byte) (address : Word) (s : State) (i : Nat) (hi : i < bytes.length), Canonical s →
    address.toNat + bytes.length ≤ 65536 → s.pc.toNat = address.toNat + i →
    (fetch (command (.load bytes address) s).1).1 = bytes[i]

/-- R153: Step takes one step when RUN is true and reports RUN after it; otherwise it changes nothing. -/
def Obligations.StepCommandTakesOneStep : Prop :=
  (∀ s : State, s.run = true → ∃ t, step s = .next t ∧
    command .step s = (t, .step (if t.run = true then .running else .halted))) ∧
  (∀ s : State, s.run = false → command .step s = (s, .step .halted))

/-- R106: Run takes steps until the budget is used or the core halts: k of them, k at most the budget, less only if the
core halted; the core was running before each; the halting step counts; the status is RUN's. -/
def Obligations.RunStepsUntilBudgetOrHalt : Prop :=
  ∀ (n : Nat) (s : State), ∃ k t status, command (.run n) s = (t, .run k status) ∧
    k ≤ n ∧ (k < n → t.run = false) ∧ Host.Core.run Sys2Proof.core k s = .next t ∧
    (∀ j, j < k → ∃ u : State, Host.Core.run Sys2Proof.core j s = .next u ∧ u.run = true) ∧
    (status = .budgetExhausted ↔ t.run = true) ∧ (status = .halted ↔ t.run = false)

/-- A run of m + n steps is a run of m and then one of n: same state, same status, the counts added. -/
def Obligations.RunsCompose : Prop :=
  ∀ (m n : Nat) (s : State),
    (runFor (m + n) s).state = (runFor n (runFor m s).state).state ∧
    (runFor (m + n) s).status = (runFor n (runFor m s).state).status ∧
    (runFor (m + n) s).steps = (runFor m s).steps + (runFor n (runFor m s).state).steps

/-- R196, for any running core whose CODE reads zero everywhere: every run uses its whole budget and only moves PC, by
the number of steps modulo 65536. -/
def Obligations.ZeroFilledCodeNeverHalts : Prop :=
  ∀ (n : Nat) (s : State), s.run = true → (∀ a : Word, codeRead s a = 0x00) →
    RunsFor n s ∧ (runFor n s).steps = n ∧
    (runFor n s).state = { s with pc := BitVec.ofNat 16 ((s.pc.toNat + n) % 65536) }

/-- R156: Inspect gives the element's value, for every element, and changes nothing. -/
def Obligations.InspectReadsEveryElementAndChangesNothing : Prop :=
  ∀ (s : State) (address : Word) (ramAddress : Byte) (elements : List Element),
    (command (.inspect elements) s).1 = s ∧
    command (.inspect elements) (command (.inspect elements) s).1 = command (.inspect elements) s ∧
    command (.inspect [.a, .b, .psw, .sp, .pc, .dptr, .run, .cause, .fopc, .fpc, .code address, .ram ramAddress]) s =
      (s, .inspect [.byte s.a, .byte s.b, .byte s.psw, .byte s.sp, .word s.pc, .word s.dptr, .flag s.run, .cause s.cause,
        .byte s.fopc, .word s.fpc, .byte (codeRead s address), .byte (ramRead s ramAddress)])

/-- R152: Reset works from any state, and no other command can change RUN from false to true. -/
def Obligations.OnlyResetLeavesHalted : Prop :=
  (∀ s : State, command .reset s = (State.reset, .nothing)) ∧
  (∀ (c : Command) (s : State), s.run = false → (command c s).1.run = true → c = .reset)

/-- R178: once halted, no session without a Reset changes anything but CODE; the fault record stands. -/
def Obligations.HaltRecordStandsUntilReset : Prop :=
  ∀ (cs : List Command) (s : State), s.run = false → (∀ c ∈ cs, c ≠ .reset) →
    (session cs s).1 = { s with code := (session cs s).1.code }

/-- R158: a command to one instance changes no other, and does to its own what it does to it alone. -/
def Obligations.InstancesAreIsolated : Prop :=
  ∀ (k : Nat) (c : Command) (instances : List State),
    (commandAt k c instances).1.length = instances.length ∧
    (∀ j, j ≠ k → (commandAt k c instances).1[j]? = instances[j]?) ∧
    (∀ s, instances[k]? = some s →
      (commandAt k c instances).1[k]? = some (command c s).1 ∧ (commandAt k c instances).2 = some (command c s).2)
end

