-- ==== Sys2Proof/Laws/Decode.lean ====
section
/-! SUPPORT. What the dispatcher and the decoder give, once each. -/

namespace Sys2Proof

@[simp] theorem handlerOf_nop : handlerOf 0x00 = .f1 .nop := rfl
@[simp] theorem handlerOf_addAImm : handlerOf 0x24 = .f2 .addAImm := rfl
@[simp] theorem handlerOf_movAImm : handlerOf 0x74 = .f2 .movAImm := rfl
@[simp] theorem handlerOf_sjmpRel : handlerOf 0x80 = .f2 .sjmpRel := rfl

theorem handlerOf_default {opcode : Byte} (h : opcode ∉ Config.implementedOpcodes) :
    handlerOf opcode = .f1 (.unimplemented opcode) := by
  simp only [Config.implementedOpcodes, List.mem_cons, not_or] at h
  obtain ⟨h0, h1, h2, h3, -⟩ := h
  unfold handlerOf
  rw [if_neg h0, if_neg h1, if_neg h2, if_neg h3]

/-- Every opcode is one of the four or selects the default handler. -/
theorem opcode_cases (opcode : Byte) :
    opcode = 0x00 ∨ opcode = 0x24 ∨ opcode = 0x74 ∨ opcode = 0x80 ∨ opcode ∉ Config.implementedOpcodes := by
  simp only [Config.implementedOpcodes, List.mem_cons, List.not_mem_nil, or_false]
  tauto

theorem decode_f1 {opcode : Byte} {i : Instr} (h : handlerOf opcode = .f1 i) (rest : List Byte) :
    decode (opcode :: rest) = .ok (i, rest) := by simp [decode, h]

theorem decode_f2 {opcode : Byte} {mk : Byte → Instr} (h : handlerOf opcode = .f2 mk) (operand : Byte)
    (rest : List Byte) : decode (opcode :: operand :: rest) = .ok (mk operand, rest) := by simp [decode, h]

theorem decode_f2_truncated {opcode : Byte} {mk : Byte → Instr} (h : handlerOf opcode = .f2 mk) :
    decode [opcode] = .error (.noOperandByte opcode) := by simp [decode, h]

end Sys2Proof
end

