-- ==== Sys2Proof/Laws/State.lean ====
section
/-! SUPPORT. One lemma per field per register update, and per field of the reset state, each true by rfl. -/

namespace Sys2Proof.Machine

@[simp] theorem State.setA_a (s : State) (v : Byte) : (s.setA v).a = v := rfl
@[simp] theorem State.setA_b (s : State) (v : Byte) : (s.setA v).b = s.b := rfl
@[simp] theorem State.setA_psw (s : State) (v : Byte) : (s.setA v).psw = s.psw := rfl
@[simp] theorem State.setA_sp (s : State) (v : Byte) : (s.setA v).sp = s.sp := rfl
@[simp] theorem State.setA_pc (s : State) (v : Byte) : (s.setA v).pc = s.pc := rfl
@[simp] theorem State.setA_dptr (s : State) (v : Byte) : (s.setA v).dptr = s.dptr := rfl
@[simp] theorem State.setA_run (s : State) (v : Byte) : (s.setA v).run = s.run := rfl
@[simp] theorem State.setA_cause (s : State) (v : Byte) : (s.setA v).cause = s.cause := rfl
@[simp] theorem State.setA_fopc (s : State) (v : Byte) : (s.setA v).fopc = s.fopc := rfl
@[simp] theorem State.setA_fpc (s : State) (v : Byte) : (s.setA v).fpc = s.fpc := rfl
@[simp] theorem State.setA_code (s : State) (v : Byte) : (s.setA v).code = s.code := rfl
@[simp] theorem State.setA_ram (s : State) (v : Byte) : (s.setA v).ram = s.ram := rfl

@[simp] theorem State.setPsw_a (s : State) (v : Byte) : (s.setPsw v).a = s.a := rfl
@[simp] theorem State.setPsw_b (s : State) (v : Byte) : (s.setPsw v).b = s.b := rfl
@[simp] theorem State.setPsw_psw (s : State) (v : Byte) : (s.setPsw v).psw = v := rfl
@[simp] theorem State.setPsw_sp (s : State) (v : Byte) : (s.setPsw v).sp = s.sp := rfl
@[simp] theorem State.setPsw_pc (s : State) (v : Byte) : (s.setPsw v).pc = s.pc := rfl
@[simp] theorem State.setPsw_dptr (s : State) (v : Byte) : (s.setPsw v).dptr = s.dptr := rfl
@[simp] theorem State.setPsw_run (s : State) (v : Byte) : (s.setPsw v).run = s.run := rfl
@[simp] theorem State.setPsw_cause (s : State) (v : Byte) : (s.setPsw v).cause = s.cause := rfl
@[simp] theorem State.setPsw_fopc (s : State) (v : Byte) : (s.setPsw v).fopc = s.fopc := rfl
@[simp] theorem State.setPsw_fpc (s : State) (v : Byte) : (s.setPsw v).fpc = s.fpc := rfl
@[simp] theorem State.setPsw_code (s : State) (v : Byte) : (s.setPsw v).code = s.code := rfl
@[simp] theorem State.setPsw_ram (s : State) (v : Byte) : (s.setPsw v).ram = s.ram := rfl

@[simp] theorem State.setSp_a (s : State) (v : Byte) : (s.setSp v).a = s.a := rfl
@[simp] theorem State.setSp_b (s : State) (v : Byte) : (s.setSp v).b = s.b := rfl
@[simp] theorem State.setSp_psw (s : State) (v : Byte) : (s.setSp v).psw = s.psw := rfl
@[simp] theorem State.setSp_sp (s : State) (v : Byte) : (s.setSp v).sp = v := rfl
@[simp] theorem State.setSp_pc (s : State) (v : Byte) : (s.setSp v).pc = s.pc := rfl
@[simp] theorem State.setSp_dptr (s : State) (v : Byte) : (s.setSp v).dptr = s.dptr := rfl
@[simp] theorem State.setSp_run (s : State) (v : Byte) : (s.setSp v).run = s.run := rfl
@[simp] theorem State.setSp_cause (s : State) (v : Byte) : (s.setSp v).cause = s.cause := rfl
@[simp] theorem State.setSp_fopc (s : State) (v : Byte) : (s.setSp v).fopc = s.fopc := rfl
@[simp] theorem State.setSp_fpc (s : State) (v : Byte) : (s.setSp v).fpc = s.fpc := rfl
@[simp] theorem State.setSp_code (s : State) (v : Byte) : (s.setSp v).code = s.code := rfl
@[simp] theorem State.setSp_ram (s : State) (v : Byte) : (s.setSp v).ram = s.ram := rfl

@[simp] theorem State.setPc_a (s : State) (v : Word) : (s.setPc v).a = s.a := rfl
@[simp] theorem State.setPc_b (s : State) (v : Word) : (s.setPc v).b = s.b := rfl
@[simp] theorem State.setPc_psw (s : State) (v : Word) : (s.setPc v).psw = s.psw := rfl
@[simp] theorem State.setPc_sp (s : State) (v : Word) : (s.setPc v).sp = s.sp := rfl
@[simp] theorem State.setPc_pc (s : State) (v : Word) : (s.setPc v).pc = v := rfl
@[simp] theorem State.setPc_dptr (s : State) (v : Word) : (s.setPc v).dptr = s.dptr := rfl
@[simp] theorem State.setPc_run (s : State) (v : Word) : (s.setPc v).run = s.run := rfl
@[simp] theorem State.setPc_cause (s : State) (v : Word) : (s.setPc v).cause = s.cause := rfl
@[simp] theorem State.setPc_fopc (s : State) (v : Word) : (s.setPc v).fopc = s.fopc := rfl
@[simp] theorem State.setPc_fpc (s : State) (v : Word) : (s.setPc v).fpc = s.fpc := rfl
@[simp] theorem State.setPc_code (s : State) (v : Word) : (s.setPc v).code = s.code := rfl
@[simp] theorem State.setPc_ram (s : State) (v : Word) : (s.setPc v).ram = s.ram := rfl

@[simp] theorem State.setRun_a (s : State) (v : Bool) : (s.setRun v).a = s.a := rfl
@[simp] theorem State.setRun_b (s : State) (v : Bool) : (s.setRun v).b = s.b := rfl
@[simp] theorem State.setRun_psw (s : State) (v : Bool) : (s.setRun v).psw = s.psw := rfl
@[simp] theorem State.setRun_sp (s : State) (v : Bool) : (s.setRun v).sp = s.sp := rfl
@[simp] theorem State.setRun_pc (s : State) (v : Bool) : (s.setRun v).pc = s.pc := rfl
@[simp] theorem State.setRun_dptr (s : State) (v : Bool) : (s.setRun v).dptr = s.dptr := rfl
@[simp] theorem State.setRun_run (s : State) (v : Bool) : (s.setRun v).run = v := rfl
@[simp] theorem State.setRun_cause (s : State) (v : Bool) : (s.setRun v).cause = s.cause := rfl
@[simp] theorem State.setRun_fopc (s : State) (v : Bool) : (s.setRun v).fopc = s.fopc := rfl
@[simp] theorem State.setRun_fpc (s : State) (v : Bool) : (s.setRun v).fpc = s.fpc := rfl
@[simp] theorem State.setRun_code (s : State) (v : Bool) : (s.setRun v).code = s.code := rfl
@[simp] theorem State.setRun_ram (s : State) (v : Bool) : (s.setRun v).ram = s.ram := rfl

@[simp] theorem State.setRecord_a (s : State) (c : Cause) (o : Byte) (p : Word) : (s.setRecord c o p).a = s.a := rfl
@[simp] theorem State.setRecord_b (s : State) (c : Cause) (o : Byte) (p : Word) : (s.setRecord c o p).b = s.b := rfl
@[simp] theorem State.setRecord_psw (s : State) (c : Cause) (o : Byte) (p : Word) : (s.setRecord c o p).psw = s.psw := rfl
@[simp] theorem State.setRecord_sp (s : State) (c : Cause) (o : Byte) (p : Word) : (s.setRecord c o p).sp = s.sp := rfl
@[simp] theorem State.setRecord_pc (s : State) (c : Cause) (o : Byte) (p : Word) : (s.setRecord c o p).pc = s.pc := rfl
@[simp] theorem State.setRecord_dptr (s : State) (c : Cause) (o : Byte) (p : Word) : (s.setRecord c o p).dptr = s.dptr := rfl
@[simp] theorem State.setRecord_run (s : State) (c : Cause) (o : Byte) (p : Word) : (s.setRecord c o p).run = s.run := rfl
@[simp] theorem State.setRecord_cause (s : State) (c : Cause) (o : Byte) (p : Word) : (s.setRecord c o p).cause = c := rfl
@[simp] theorem State.setRecord_fopc (s : State) (c : Cause) (o : Byte) (p : Word) : (s.setRecord c o p).fopc = o := rfl
@[simp] theorem State.setRecord_fpc (s : State) (c : Cause) (o : Byte) (p : Word) : (s.setRecord c o p).fpc = p := rfl
@[simp] theorem State.setRecord_code (s : State) (c : Cause) (o : Byte) (p : Word) : (s.setRecord c o p).code = s.code := rfl
@[simp] theorem State.setRecord_ram (s : State) (c : Cause) (o : Byte) (p : Word) : (s.setRecord c o p).ram = s.ram := rfl

@[simp] theorem State.setCode_a (s : State) (m : Memory) : (s.setCode m).a = s.a := rfl
@[simp] theorem State.setCode_b (s : State) (m : Memory) : (s.setCode m).b = s.b := rfl
@[simp] theorem State.setCode_psw (s : State) (m : Memory) : (s.setCode m).psw = s.psw := rfl
@[simp] theorem State.setCode_sp (s : State) (m : Memory) : (s.setCode m).sp = s.sp := rfl
@[simp] theorem State.setCode_pc (s : State) (m : Memory) : (s.setCode m).pc = s.pc := rfl
@[simp] theorem State.setCode_dptr (s : State) (m : Memory) : (s.setCode m).dptr = s.dptr := rfl
@[simp] theorem State.setCode_run (s : State) (m : Memory) : (s.setCode m).run = s.run := rfl
@[simp] theorem State.setCode_cause (s : State) (m : Memory) : (s.setCode m).cause = s.cause := rfl
@[simp] theorem State.setCode_fopc (s : State) (m : Memory) : (s.setCode m).fopc = s.fopc := rfl
@[simp] theorem State.setCode_fpc (s : State) (m : Memory) : (s.setCode m).fpc = s.fpc := rfl
@[simp] theorem State.setCode_code (s : State) (m : Memory) : (s.setCode m).code = m := rfl
@[simp] theorem State.setCode_ram (s : State) (m : Memory) : (s.setCode m).ram = s.ram := rfl

@[simp] theorem State.setRam_a (s : State) (m : Memory) : (s.setRam m).a = s.a := rfl
@[simp] theorem State.setRam_b (s : State) (m : Memory) : (s.setRam m).b = s.b := rfl
@[simp] theorem State.setRam_psw (s : State) (m : Memory) : (s.setRam m).psw = s.psw := rfl
@[simp] theorem State.setRam_sp (s : State) (m : Memory) : (s.setRam m).sp = s.sp := rfl
@[simp] theorem State.setRam_pc (s : State) (m : Memory) : (s.setRam m).pc = s.pc := rfl
@[simp] theorem State.setRam_dptr (s : State) (m : Memory) : (s.setRam m).dptr = s.dptr := rfl
@[simp] theorem State.setRam_run (s : State) (m : Memory) : (s.setRam m).run = s.run := rfl
@[simp] theorem State.setRam_cause (s : State) (m : Memory) : (s.setRam m).cause = s.cause := rfl
@[simp] theorem State.setRam_fopc (s : State) (m : Memory) : (s.setRam m).fopc = s.fopc := rfl
@[simp] theorem State.setRam_fpc (s : State) (m : Memory) : (s.setRam m).fpc = s.fpc := rfl
@[simp] theorem State.setRam_code (s : State) (m : Memory) : (s.setRam m).code = s.code := rfl
@[simp] theorem State.setRam_ram (s : State) (m : Memory) : (s.setRam m).ram = m := rfl

@[simp] theorem State.reset_a : State.reset.a = 0 := rfl
@[simp] theorem State.reset_b : State.reset.b = 0 := rfl
@[simp] theorem State.reset_psw : State.reset.psw = 0 := rfl
@[simp] theorem State.reset_sp : State.reset.sp = 0x07 := rfl
@[simp] theorem State.reset_pc : State.reset.pc = 0 := rfl
@[simp] theorem State.reset_dptr : State.reset.dptr = 0 := rfl
@[simp] theorem State.reset_run : State.reset.run = true := rfl
@[simp] theorem State.reset_cause : State.reset.cause = .none := rfl
@[simp] theorem State.reset_fopc : State.reset.fopc = 0 := rfl
@[simp] theorem State.reset_fpc : State.reset.fpc = 0 := rfl
@[simp] theorem State.reset_code : State.reset.code = [] := rfl
@[simp] theorem State.reset_ram : State.reset.ram = [] := rfl

end Sys2Proof.Machine
end

