-- ==== Sys2Proof/Laws/Memory.lean ====
section
/-! SUPPORT. Memory: reads after writes, and that every memory operation keeps the canonical form. -/

namespace Sys2Proof.Machine

@[simp] theorem Memory.read_nil (a : Nat) : Memory.read [] a = 0 := rfl

theorem Memory.read_cons (c : Host.Cell) (m : Memory) (a : Nat) :
    Memory.read (c :: m) a = if a = c.1 then c.2 else Memory.read m a := rfl

theorem Memory.wf_nil (size : Nat) : Memory.wf size [] := by simp [Memory.wf]

/-- A canonical memory is a first cell below all others, in range and not zero, and a canonical rest. -/
theorem Memory.wf_cons (size : Nat) (c : Host.Cell) (m : Memory) :
    Memory.wf size (c :: m) ↔ (∀ d ∈ m, c.1 < d.1) ∧ (c.1 < size ∧ c.2 ≠ 0) ∧ Memory.wf size m := by
  simp only [Memory.wf, List.pairwise_cons, List.forall_mem_cons, Config.resetByte]
  tauto

/-- An address below every listed one reads as the reset byte. -/
theorem Memory.read_below {m : Memory} {a : Nat} (h : ∀ c ∈ m, a < c.1) : Memory.read m a = 0 := by
  induction m with
  | nil => rfl
  | cons c m ih =>
    have hc := h c (by simp)
    rw [Memory.read_cons, if_neg (by omega)]
    exact ih fun d hd => h d (by simp [hd])

/-- An address at or above the memory's size reads as the reset byte. -/
theorem Memory.read_beyond {m : Memory} {size a : Nat} (h : Memory.wf size m) (ha : size ≤ a) :
    Memory.read m a = 0 := by
  induction m with
  | nil => rfl
  | cons c m ih =>
    obtain ⟨-, ⟨hc, -⟩, hm⟩ := (Memory.wf_cons size c m).1 h
    rw [Memory.read_cons, if_neg (by omega)]
    exact ih hm

/-- Every cell a write leaves was there before or is the written one. -/
theorem Memory.mem_write {m : Memory} {a : Nat} {v : Byte} {c : Host.Cell} (h : c ∈ Memory.write m a v) :
    c ∈ m ∨ (c = (a, v) ∧ v ≠ 0) := by
  induction m with
  | nil =>
    simp only [Memory.write] at h
    split at h <;> simp_all
  | cons d m ih =>
    obtain ⟨k, w⟩ := d
    simp only [Memory.write] at h
    split_ifs at h <;> simp_all <;> tauto

/-- A write keeps the canonical form. -/
theorem Memory.wf_write {size : Nat} {m : Memory} (h : Memory.wf size m) {a : Nat} (ha : a < size) (v : Byte) :
    Memory.wf size (Memory.write m a v) := by
  induction m with
  | nil =>
    simp only [Memory.write]
    split
    · exact h
    · exact (Memory.wf_cons _ _ _).2 ⟨by simp, ⟨ha, by simp_all⟩, h⟩
  | cons d m ih =>
    obtain ⟨k, w⟩ := d
    obtain ⟨hlt, hk, hm⟩ := (Memory.wf_cons _ _ _).1 h
    simp only [Memory.write]
    split_ifs with h1 h2 h3 h4
    · exact h
    · refine (Memory.wf_cons _ _ _).2 ⟨?_, ⟨ha, by simp_all⟩, h⟩
      intro d hd
      rcases List.mem_cons.1 hd with rfl | hd
      · exact h1
      · exact lt_trans h1 (hlt d hd)
    · exact hm
    · exact (Memory.wf_cons _ _ _).2 ⟨by simpa [h3] using hlt, ⟨ha, by simp_all⟩, hm⟩
    · refine (Memory.wf_cons _ _ _).2 ⟨?_, hk, ih hm⟩
      intro d hd
      rcases Memory.mem_write hd with hd | ⟨rfl, -⟩
      · exact hlt d hd
      · simp only
        omega

/-- A write is read back at its own address. -/
theorem Memory.read_write_same {size : Nat} {m : Memory} (h : Memory.wf size m) (a : Nat) (v : Byte) :
    Memory.read (Memory.write m a v) a = v := by
  induction m with
  | nil =>
    simp only [Memory.write]
    split <;> simp_all [Memory.read]
  | cons d m ih =>
    obtain ⟨k, w⟩ := d
    obtain ⟨hlt, -, hm⟩ := (Memory.wf_cons _ _ _).1 h
    simp only [Memory.write]
    split_ifs with h1 h2 h3 h4
    · rw [h2, Memory.read_cons, if_neg (by simp only; omega)]
      exact Memory.read_below fun c hc => lt_trans h1 (hlt c hc)
    · simp [Memory.read]
    · rw [h4]
      exact Memory.read_below fun c hc => by rw [h3]; exact hlt c hc
    · simp [Memory.read]
    · rw [Memory.read_cons, if_neg h3]
      exact ih hm

/-- A write leaves every other address as it was. -/
theorem Memory.read_write_other (m : Memory) {a b : Nat} (hb : b ≠ a) (v : Byte) :
    Memory.read (Memory.write m a v) b = Memory.read m b := by
  induction m with
  | nil =>
    simp only [Memory.write]
    split <;> simp [Memory.read, hb]
  | cons d m ih =>
    obtain ⟨k, w⟩ := d
    simp only [Memory.write]
    split_ifs with h1 h2 h3 h4 <;> simp_all [Memory.read]

/-- Load's write loop keeps the canonical form, where the bytes fit. -/
theorem Memory.wf_writeBytes {size : Nat} (bytes : List Byte) :
    ∀ {m : Memory} {a : Nat}, Memory.wf size m → a + bytes.length ≤ size → Memory.wf size (Memory.writeBytes m a bytes) := by
  induction bytes with
  | nil => intro m a h _; exact h
  | cons v vs ih =>
    intro m a h hsize
    simp only [List.length_cons] at hsize
    exact ih (Memory.wf_write h (by omega) v) (by omega)

/-- Load's write loop leaves every address outside the bytes as it was. -/
theorem Memory.read_writeBytes_outside (bytes : List Byte) :
    ∀ (m : Memory) {a b : Nat}, (b < a ∨ a + bytes.length ≤ b) →
      Memory.read (Memory.writeBytes m a bytes) b = Memory.read m b := by
  induction bytes with
  | nil => intro m a b _; rfl
  | cons v vs ih =>
    intro m a b hb
    simp only [List.length_cons] at hb
    simp only [Memory.writeBytes]
    rw [ih _ (by omega), Memory.read_write_other m (by omega)]

/-- Load's write loop stores byte `i` at the start address plus `i`. -/
theorem Memory.read_writeBytes_inside {size : Nat} (bytes : List Byte) :
    ∀ {m : Memory} {a i : Nat} (hi : i < bytes.length), Memory.wf size m → a + bytes.length ≤ size →
      Memory.read (Memory.writeBytes m a bytes) (a + i) = bytes[i] := by
  induction bytes with
  | nil => intro m a i hi; simp at hi
  | cons v vs ih =>
    intro m a i hi hm hsize
    simp only [List.length_cons] at hi hsize
    simp only [Memory.writeBytes]
    cases i with
    | zero => rw [Memory.read_writeBytes_outside vs _ (by omega)]; exact Memory.read_write_same hm a v
    | succ i =>
      have := ih (m := Memory.write m a v) (a := a + 1) (i := i) (by omega) (Memory.wf_write hm (by omega) v) (by omega)
      rw [show a + (i + 1) = a + 1 + i by omega, this]
      rfl

end Sys2Proof.Machine
end

