-- ==== Sys2Proof/Laws/Ops.lean ====
section
/-! SUPPORT. One lemma per shared operation, saying once all it does. -/

namespace Sys2Proof.Machine

@[simp] theorem fetch_fst (s : State) : (fetch s).1 = codeRead s s.pc := rfl
@[simp] theorem fetch_snd (s : State) : (fetch s).2 = s.setPc (s.pc + 1) := rfl

/-- Only CODE decides what a code read gives. -/
theorem codeRead_congr {s t : State} (h : s.code = t.code) (a : Word) : codeRead s a = codeRead t a := by
  simp only [codeRead, h]

theorem ramRead_congr {s t : State} (h : s.ram = t.ram) (a : Byte) : ramRead s a = ramRead t a := by
  simp only [ramRead, h]

@[simp] theorem codeRead_setPc (s : State) (v a : Word) : codeRead (s.setPc v) a = codeRead s a := rfl
@[simp] theorem ramRead_setSp (s : State) (v a : Byte) : ramRead (s.setSp v) a = ramRead s a := rfl

/-- `push` (R57). -/
theorem push_eq (s : State) (v : Byte) :
    push s v = (s.setSp (s.sp + 1)).setRam (s.ram.write (s.sp + 1).toNat v) := rfl

/-- `pop` (R58). -/
theorem pop_eq (s : State) : pop s = (ramRead s s.sp, s.setSp (s.sp - 1)) := rfl

/-- Taking the exception (R176). -/
theorem raiseUnimplementedOpcode_eq (opcode : Byte) (addr : Word) (s : State) :
    raiseUnimplementedOpcode opcode addr s =
      { s with cause := .unimplementedOpcode, fopc := opcode, fpc := addr, run := false } := rfl

theorem fetchInstr_f1 {s : State} {i : Instr} (h : handlerOf (codeRead s s.pc) = .f1 i) :
    fetchInstr s = (i, s.setPc (s.pc + 1)) := by
  simp only [fetchInstr, fetch_fst, h, fetch_snd]

theorem fetchInstr_f2 {s : State} {mk : Byte → Instr} (h : handlerOf (codeRead s s.pc) = .f2 mk) :
    fetchInstr s = (mk (codeRead s (s.pc + 1)), s.setPc (s.pc + 1 + 1)) := by
  simp only [fetchInstr, fetch_fst, h, fetch_snd]
  rfl

/-- A load of bytes that fit (R71). -/
theorem loadCode_fits {s : State} {bytes : List Byte} {address : Word} (h : address.toNat + bytes.length ≤ 65536) :
    loadCode s bytes address = some (s.setCode (s.code.writeBytes address.toNat bytes)) := by
  simp only [loadCode, Config.codeSize]
  rw [if_neg (by omega)]

/-- A load of bytes that do not fit (R71). -/
theorem loadCode_exceeds {s : State} {bytes : List Byte} {address : Word} (h : 65536 < address.toNat + bytes.length) :
    loadCode s bytes address = none := by
  simp only [loadCode, Config.codeSize]
  rw [if_pos (by omega)]

/-- Writing CY leaves every other bit of PSW (R26). -/
theorem withCy_getLsbD (psw : Byte) (c : Bool) (i : Nat) :
    (withCy psw c).getLsbD i = if i = 0 then c else psw.getLsbD i := by
  by_cases hi : i < 8
  · revert psw c
    interval_cases i <;> decide
  · rw [if_neg (by omega), BitVec.getLsbD_of_ge _ _ (by omega), BitVec.getLsbD_of_ge _ _ (by omega)]

/-- The written CY, in the form simp gives bit 0. -/
@[simp] theorem withCy_bit_zero (psw : Byte) (c : Bool) : (withCy psw c)[0] = c := by
  simpa using withCy_getLsbD psw c 0

end Sys2Proof.Machine
end

