-- ==== Sys2Proof/Laws/Step.lean ====
section
/-! SUPPORT. Inversion of exec and of step: what they can answer, said once. -/

namespace Sys2Proof.Machine

@[simp] theorem exec_nop (s : State) : exec .nop s = .next s := rfl
theorem exec_addAImm (d : Byte) (s : State) :
    exec (.addAImm d) s =
      .next ((s.setPsw (withCy s.psw (carryOut (addSum s.a d)))).setA (trunc8 (addSum s.a d))) := rfl
theorem exec_movAImm (d : Byte) (s : State) : exec (.movAImm d) s = .next (s.setA d) := rfl
theorem exec_sjmpRel (r : Byte) (s : State) : exec (.sjmpRel r) s = .next (s.setPc (jumpTarget s.pc r)) := rfl
theorem exec_unimplemented (o : Byte) (s : State) :
    exec (.unimplemented o) s = .next (raiseUnimplementedOpcode o (s.pc - 1) s) := rfl

/-- Every instruction answers a next state, in every state. -/
theorem exec_next (i : Instr) (s : State) : ∃ t, exec i s = .next t := by
  cases i <;> exact ⟨_, rfl⟩

theorem step_halted {s : State} (h : s.run = false) : step s = .fault .halted := by simp [step, h]

theorem step_of_run {s : State} (h : s.run = true) : step s = exec (fetchInstr s).1 (fetchInstr s).2 := by
  simp [step, h]

/-- A running core always answers a next state. -/
theorem step_running {s : State} (h : s.run = true) : ∃ t, step s = .next t := by
  rw [step_of_run h]
  exact exec_next _ _

/-- Everything a step can do: the core was running, and what it did follows from the opcode byte at PC. -/
theorem step_next_cases {s t : State} (h : step s = .next t) :
    s.run = true ∧
      ((codeRead s s.pc = 0x00 ∧ t = s.setPc (s.pc + 1)) ∨
       (codeRead s s.pc = 0x24 ∧ exec (.addAImm (codeRead s (s.pc + 1))) (s.setPc (s.pc + 1 + 1)) = .next t) ∨
       (codeRead s s.pc = 0x74 ∧ t = (s.setPc (s.pc + 1 + 1)).setA (codeRead s (s.pc + 1))) ∨
       (codeRead s s.pc = 0x80 ∧ t = s.setPc (jumpTarget (s.pc + 1 + 1) (codeRead s (s.pc + 1)))) ∨
       (codeRead s s.pc ∉ Config.implementedOpcodes ∧
          t = raiseUnimplementedOpcode (codeRead s s.pc) s.pc (s.setPc (s.pc + 1)))) := by
  cases hr : s.run with
  | false => simp [step_halted hr] at h
  | true =>
    refine ⟨rfl, ?_⟩
    rw [step_of_run hr] at h
    rcases opcode_cases (codeRead s s.pc) with ho | ho | ho | ho | ho
    · rw [fetchInstr_f1 (by rw [ho]; exact handlerOf_nop)] at h
      simp only [exec_nop, Host.Outcome.next.injEq] at h
      exact .inl ⟨ho, h.symm⟩
    · rw [fetchInstr_f2 (by rw [ho]; exact handlerOf_addAImm)] at h
      exact .inr (.inl ⟨ho, h⟩)
    · rw [fetchInstr_f2 (by rw [ho]; exact handlerOf_movAImm)] at h
      simp only [exec_movAImm, Host.Outcome.next.injEq] at h
      exact .inr (.inr (.inl ⟨ho, h.symm⟩))
    · rw [fetchInstr_f2 (by rw [ho]; exact handlerOf_sjmpRel)] at h
      simp only [exec_sjmpRel, Host.Outcome.next.injEq] at h
      exact .inr (.inr (.inr (.inl ⟨ho, h.symm⟩)))
    · rw [fetchInstr_f1 (handlerOf_default ho)] at h
      simp only [exec_unimplemented, Host.Outcome.next.injEq, State.setPc_pc, BitVec.add_sub_cancel] at h
      exact .inr (.inr (.inr (.inr ⟨ho, h.symm⟩)))

end Sys2Proof.Machine
end

