-- ==== Sys2Proof/Laws/Commands.lean ====
section
/-! SUPPORT. What Run's loop and the Step command do. -/

namespace Sys2Proof.Machine

@[simp] theorem runLoop_zero (s : State) : runLoop 0 s = (0, s) := rfl

theorem runLoop_halted {s : State} (h : s.run = false) (n : Nat) : runLoop n s = (0, s) := by
  cases n <;> simp [runLoop, h]

/-- A running core with budget left takes its step and goes on. -/
theorem runLoop_step {s t : State} (h : step s = .next t) (n : Nat) :
    runLoop (n + 1) s = ((runLoop n t).1 + 1, (runLoop n t).2) := by
  have hr := (step_next_cases h).1
  simp [runLoop, hr, h]

theorem stepCommand_step {s t : State} (h : step s = .next t) :
    stepCommand s = (t, if t.run then .running else .halted) := by simp [stepCommand, h]

theorem stepCommand_halted {s : State} (h : s.run = false) : stepCommand s = (s, .halted) := by
  simp [stepCommand, step_halted h, h]

end Sys2Proof.Machine
end

