-- ==== Sys2Proof/Laws/PerInstr.lean ====
section
/-! SUPPORT. Facts about every instruction as syntax, one lemma a constructor. -/

namespace Sys2Proof.Laws

/-- An instruction is encoded in as many bytes as the length column of R83 says, and in 1 or 2 (R80). -/
def EncodeLength.Statement (i : Instr) : Prop :=
  (encode i).length = instrLength i ∧ 1 ≤ instrLength i ∧ instrLength i ≤ 2

theorem EncodeLength.nop : EncodeLength.Statement .nop := by simp [EncodeLength.Statement, encode, instrLength]
theorem EncodeLength.addAImm (d : Byte) : EncodeLength.Statement (.addAImm d) := by
  simp [EncodeLength.Statement, encode, instrLength]
theorem EncodeLength.movAImm (d : Byte) : EncodeLength.Statement (.movAImm d) := by
  simp [EncodeLength.Statement, encode, instrLength]
theorem EncodeLength.sjmpRel (r : Byte) : EncodeLength.Statement (.sjmpRel r) := by
  simp [EncodeLength.Statement, encode, instrLength]
theorem EncodeLength.unimplemented (o : Byte) : EncodeLength.Statement (.unimplemented o) := by
  simp [EncodeLength.Statement, encode, instrLength]

end Sys2Proof.Laws
end

