-- ==== Sys2Proof/Tests/Slice0.lean ====
section
/-! SUPPORT. The model's own tests: ill-formed terms refused, words written out from the spec's encodings, single steps
taken from the spec's vectors (95_test_vectors.md), and for each statement with hypotheses a state that meets them. -/

namespace Sys2Proof.Tests

open Sys2Proof.Machine Sys2Proof.Statements

/-- Reset, with PC, A, PSW and some CODE cells set. -/
def st (pc : Word) (code : Memory) (a psw : Byte := 0) : State :=
  { State.reset with pc := pc, code := code, a := a, psw := psw }

/-- The next state, where there is one. -/
def nextOf : Host.Outcome State Fault Refusal → Option State
  | .next t => some t
  | .fault _ => none
  | .refused _ => none

/-- A, PSW, PC, RUN after one step. -/
def after (s : State) : Option (Byte × Byte × Word × Bool) := (nextOf (step s)).map fun t => (t.a, t.psw, t.pc, t.run)

/-! ## WellFormed: the one check, once per implemented opcode (R86) -/

theorem smoke_unimplemented_00_refused : Instr.wellFormed (.unimplemented 0x00) = false := by decide
theorem smoke_unimplemented_24_refused : Instr.wellFormed (.unimplemented 0x24) = false := by decide
theorem smoke_unimplemented_74_refused : Instr.wellFormed (.unimplemented 0x74) = false := by decide
theorem smoke_unimplemented_80_refused : Instr.wellFormed (.unimplemented 0x80) = false := by decide
theorem smoke_unimplemented_A5_accepted : Instr.wellFormed (.unimplemented 0xA5) = true := by decide

/-! ## Decode: words from the encoding column of opcode_table.json -/

theorem test_decode_nop : decode [0b00000000] = .ok (.nop, []) := by decide
theorem test_decode_add : decode [0b00100100, 0b10000001, 0xFF] = .ok (.addAImm 0x81, [0xFF]) := by decide
theorem test_decode_mov : decode [0b01110100, 0b01000010] = .ok (.movAImm 0x42, []) := by decide
theorem test_decode_sjmp : decode [0b10000000, 0b11111110] = .ok (.sjmpRel 0xFE, []) := by decide
theorem test_decode_unimplemented : decode [0b10000100, 0x24] = .ok (.unimplemented 0x84, [0x24]) := by decide
theorem test_decode_no_opcode : decode [] = .error .noOpcodeByte := by decide
theorem test_decode_no_operand : decode [0x74] = .error (.noOperandByte 0x74) := by decide
theorem test_table_word_add : decodeTableWord 16 0x0324 = some (.addAImm 0x03) := by decide
theorem test_table_word_bits_above_are_zero : decodeTableWord 8 0x0374 = some (.movAImm 0x00) := by decide
theorem test_fetch_word_runs : after (State.reset.withFetchWord 16 0x0574) = some (0x05, 0x00, 0x0002, true) := by decide

/-! ## Single steps: 95_test_vectors.md -/

/-- V-NOP row 2 -/
theorem test_nop_wraps : after (st 0xFFFF []) = some (0x00, 0x00, 0x0000, true) := by decide
/-- V-NOP row 3 -/
theorem test_nop_keeps_a_and_psw : after (st 0x0000 [] 0x5A 0x01) = some (0x5A, 0x01, 0x0001, true) := by decide
/-- V-MOV row 4 -/
theorem test_mov_operand_wraps : after (st 0xFFFF [(0, 0x42), (0xFFFF, 0x74)]) = some (0x42, 0x00, 0x0001, true) := by decide
/-- V-MOV row 2 -/
theorem test_mov_zero_keeps_cy : after (st 0x0000 [(0, 0x74)] 0x33 0x01) = some (0x00, 0x01, 0x0002, true) := by decide
/-- V-ADD row 3: the largest sum -/
theorem test_add_largest_sum : after (st 0 [(0, 0x24), (1, 0xFF)] 0xFF 0) = some (0xFE, 0x01, 0x0002, true) := by decide
/-- V-ADD row 7: no carry-in, and CY cleared -/
theorem test_add_ignores_carry_in : after (st 0 [(0, 0x24), (1, 0x0F)] 0xF0 1) = some (0xFF, 0x00, 0x0002, true) := by decide
/-- V-SJMP row 3: backward across 0 -/
theorem test_sjmp_backward_wraps : after (st 0 [(0, 0x80), (1, 0x80)]) = some (0, 0, 0xFF82, true) := by decide
/-- V-SJMP row 7: forward across 0xFFFF -/
theorem test_sjmp_forward_wraps : after (st 0xFFF0 [(0xFFF0, 0x80), (0xFFF1, 0x7F)]) = some (0, 0, 0x0071, true) := by decide
/-- V-UNIMP row 1 -/
theorem test_unimplemented_records :
    nextOf (step (st 0x0010 [(0x10, 0xA5)] 0x33)) =
      some { st 0x0011 [(0x10, 0xA5)] 0x33 with
        run := false, cause := .unimplementedOpcode, fopc := 0xA5, fpc := 0x0010 } := by decide
/-- V-UNIMP row 2: the address wraps back to 0xFFFF -/
theorem test_unimplemented_at_top :
    (nextOf (step (st 0xFFFF [(0xFFFF, 0x01)]))).map (fun t => (t.fpc, t.fopc, t.pc)) = some (0xFFFF, 0x01, 0x0000) := by
  decide

/-! ## Primitives and commands: V-STACK, V-LOAD, V-RUN, R90, R171 -/

/-- V-STACK row 1 -/
theorem test_push : push State.reset 0xAA = { State.reset with sp := 0x08, ram := [(0x08, 0xAA)] } := by decide
/-- V-STACK row 3 -/
theorem test_push_wraps : push { State.reset with sp := 0xFF } 0x55 = { State.reset with sp := 0x00, ram := [(0, 0x55)] } := by
  decide
/-- V-STACK row 4 -/
theorem test_pop_wraps : ((pop { State.reset with sp := 0, ram := [(0, 0x66)] }).1,
    (pop { State.reset with sp := 0, ram := [(0, 0x66)] }).2.sp) = (0x66, 0xFF) := by decide
/-- V-LOAD row 2 -/
theorem test_load_to_the_top :
    command (.load [0x74] 0xFFFF) State.reset = ({ State.reset with code := [(0xFFFF, 0x74)] }, .load .ok) := by decide
/-- V-LOAD row 3 -/
theorem test_load_over_the_top :
    command (.load [0x01, 0x02] 0xFFFF) State.reset = (State.reset, .load .capacityExceeded) := by decide
/-- V-RUN row 1 -/
theorem test_run_zero : command (.run 0) State.reset = (State.reset, .run 0 .budgetExhausted) := by decide
/-- V-RUN rows 2 and 3 -/
theorem test_step_reports_halted : (command .step (st 0 [(0, 0xA5)])).2 = .step .halted := by decide
/-- R90: the farthest displacements, and one too far -/
theorem test_label_distance : [assembleLine 0 (.sjmpLabel "x" 0x0081), assembleLine 0 (.sjmpLabel "x" 0xFF82),
    assembleLine 0 (.sjmpLabel "x" 0x0082)] = [some (.sjmpRel 0x7F), some (.sjmpRel 0x80), none] := by decide
/-- R90's immediates: 255 is the largest -/
theorem test_immediate_range : [assembleLine 0 (.movAImm 255), assembleLine 0 (.addAImm 256)] = [some (.movAImm 0xFF), none] := by
  decide
/-- R90's syntax, as 95_test_vectors.md P2 and P3 write it -/
theorem test_text : [lineText (.addAImm 0x20), lineText (.sjmpRel (-2)), lineText (.sjmpRel 2)] =
    ["ADD A,#0x20", "SJMP -2", "SJMP +2"] := by decide
/-- R171 -/
theorem test_codes : [causeCode .none, causeCode .unimplementedOpcode, loadResultCode .ok, loadResultCode .capacityExceeded,
    stepStatusCode .running, stepStatusCode .halted, runStatusCode .budgetExhausted, runStatusCode .halted] =
    [0, 1, 0, 1, 0, 1, 0, 1] := by decide

/-! ## Witnesses: for each statement with hypotheses, a state and operands that meet them together -/

/-- A halted state: V-UNIMP row 1 with the reset A. -/
def haltedSt : State :=
  { st 0x0011 [(0x10, 0xA5)] with run := false, cause := .unimplementedOpcode, fopc := 0xA5, fpc := 0x0010 }

theorem inv_reset : Inv State.reset where
  canonical := by decide
  b_zero := rfl
  dptr_zero := rfl
  sp_reset := rfl
  ram_zero := fun _ => rfl
  psw_reserved := fun i _ => by simp
  running_record := fun _ => ⟨rfl, rfl, rfl⟩
  halted_record := fun h => by simp at h

theorem inv_halted : Inv haltedSt where
  canonical := by decide
  b_zero := rfl
  dptr_zero := rfl
  sp_reset := rfl
  ram_zero := fun _ => rfl
  psw_reserved := fun i _ => by simp [haltedSt, st]
  running_record := fun h => by simp [haltedSt] at h
  halted_record := fun _ => by decide

/-- StepKeepsInvariant: a running state of the invariant whose step answers a next state. -/
theorem witness_step_keeps_invariant : Inv State.reset ∧ step State.reset = .next (st 0x0001 []) := ⟨inv_reset, rfl⟩

/-- HostCommandKeepsInvariant: a running and a halted state. -/
theorem witness_command_keeps_invariant : Inv State.reset ∧ Inv haltedSt := ⟨inv_reset, inv_halted⟩

/-- ReachableStatesKeepUnusedElements, the running clause and the halted clause. -/
theorem witness_reachable_running : Reachable State.reset ∧ State.reset.run = true := ⟨⟨[], rfl⟩, rfl⟩
theorem witness_reachable_halted : ∃ s, Reachable s ∧ s.run = false :=
  ⟨_, ⟨[.load [0xA5] 0, .step], rfl⟩, by decide⟩

/-- CanonicalMemoriesAreKept, PushStores…, PopReturns…, RamWrite…: cells at both ends of both memories. -/
theorem witness_canonical :
    Canonical { State.reset with code := [(0, 0x74), (0xFFFF, 0x24)], ram := [(0, 0x01), (0xFF, 0x02)] } := by decide

theorem witness_canonical_step :
    Canonical (st 0xFFFF [(0xFFFF, 0x80)]) ∧ step (st 0xFFFF [(0xFFFF, 0x80)]) = .next (st 0x0001 [(0xFFFF, 0x80)]) :=
  ⟨by decide, rfl⟩

/-- CanonicalMemoriesThatReadAlikeAreEqual: two states that differ in a register. -/
theorem witness_read_alike : Canonical (st 0 [(3, 0x09)]) ∧ Canonical (st 5 [(3, 0x09)]) ∧
    SameMemory (st 0 [(3, 0x09)]) (st 5 [(3, 0x09)]) := ⟨by decide, by decide, fun _ => rfl, fun _ => rfl⟩

/-- DecodeInvertsEncode, for each constructor, the boundary opcodes beside an implemented one included. -/
theorem witness_well_formed : [Instr.nop, .addAImm 0xFF, .movAImm 0x00, .sjmpRel 0x80, .unimplemented 0x01,
    .unimplemented 0xFF].all Instr.wellFormed = true := by decide

/-- DecodedBytesAreTheEncoding. -/
theorem witness_decoded : decode [0x80, 0x7F, 0x00] = .ok (.sjmpRel 0x7F, [0x00]) := by decide

/-- DispatchMapIsTheTable's last line, at the values beside 0x80. -/
theorem witness_dispatch_default : (0x7F : Byte) ≠ 0x00 ∧ (0x7F : Byte) ≠ 0x24 ∧ (0x7F : Byte) ≠ 0x74 ∧ (0x7F : Byte) ≠ 0x80 := by
  decide

/-- LabelFormReachesItsLabel: the last label in reach, with the state after the instruction, and the first out of it. -/
theorem witness_label_reached : assembleLine 0xFFFE (.sjmpLabel "x" 0x007F) = some (.sjmpRel 0x7F) ∧
    (st 0x0000 []).pc = 0xFFFE + 2 := by decide
theorem witness_label_out_of_reach : assembleLine 0xFFFE (.sjmpLabel "x" 0x0080) = none := by decide
theorem witness_label_no_displacement :
    ∀ r : Int, -128 ≤ r → r ≤ 127 → (((0xFFFE : Word).toNat : Int) + 2 + r) % 65536 ≠ (0x0080 : Word).toNat := by
  intro r h1 h2
  have e1 : (0xFFFE : Word).toNat = 65534 := rfl
  have e2 : (0x0080 : Word).toNat = 128 := rfl
  rw [e1, e2]
  omega

/-- StepRunsTheDecodedInstruction, across the wrap. -/
theorem witness_step_runs_decoded : (st 0xFFFF [(0, 0x42), (0xFFFF, 0x74)]).run = true ∧
    decode [codeRead (st 0xFFFF [(0, 0x42), (0xFFFF, 0x74)]) 0xFFFF,
      codeRead (st 0xFFFF [(0, 0x42), (0xFFFF, 0x74)]) (0xFFFF + 1)] = .ok (.movAImm 0x42, []) := by decide

/-- StepFollowsTheProtocol, OnlyUnimplementedOpcodesHalt, NoInstructionReadsUnusedState: a running core. -/
theorem witness_running : (st 0xFFFF [(0xFFFF, 0x24)]).run = true := by decide

/-- OnlyUnimplementedOpcodesHalt's two clauses: a step that halts and one that does not. -/
theorem witness_halting_step : (after (st 0 [(0, 0xFF)])).map (·.2.2.2) = some false := by decide
theorem witness_running_step : (after (st 0 [(0, 0x80)])).map (·.2.2.2) = some true := by decide

/-- HaltedCoreTakesNoStep, OnlyResetLeavesHalted, StepCommandTakesOneStep's second clause. -/
theorem witness_halted : haltedSt.run = false ∧ (command .reset haltedSt).1.run = true := by decide

/-- HaltRecordStandsUntilReset, with a session that loads. -/
theorem witness_halted_session : haltedSt.run = false ∧
    ∀ c ∈ [Command.load [0x00] 0, .step, .run 7, .inspect [.a]], c ≠ .reset := by decide

/-- NoStepWritesUnusedStateOrMemory, with an ADD that carries. -/
theorem witness_step_answers : ∃ t, step (st 0 [(0, 0x24), (1, 0x01)] 0xFF 0) = .next t := ⟨_, rfl⟩

/-- StepSeesOnlyItsInstructionBytes: a CODE that differs outside the two bytes. -/
theorem witness_other_code : (st 0 [(0, 0x24), (1, 0x07)]).run = true ∧
    codeRead { st 0 [(0, 0x24), (1, 0x07)] with code := [(0, 0x24), (1, 0x07), (2, 0xFF)] } 0 = opcodeAt (st 0 [(0, 0x24), (1, 0x07)]) ∧
    codeRead { st 0 [(0, 0x24), (1, 0x07)] with code := [(0, 0x24), (1, 0x07), (2, 0xFF)] } (0 + 1) =
      operandAt (st 0 [(0, 0x24), (1, 0x07)]) := by decide

/-- NoInstructionReadsUnusedState, its last two clauses: an ADD and another opcode. -/
theorem witness_add_and_not_add : opcodeAt (st 0 [(0, 0x24)]) = 0x24 ∧ opcodeAt (st 0 [(0, 0x74)]) ≠ 0x24 := by decide

/-- FetchWordRunsTheDecodedWord. -/
theorem witness_fetch_word : Canonical State.reset ∧ decodeTableWord 16 0xFE80 = some (.sjmpRel 0xFE) := by decide

/-- The step clause of NOP, at the last address, and its zero-filled clause, which is also ZeroFilledCodeNeverHalts'. -/
theorem witness_nop_step : (st 0xFFFF []).run = true ∧ opcodeAt (st 0xFFFF []) = 0x00 := by decide
theorem witness_zero_filled : ∃ n : Nat, n = 65536 ∧ (st 0xFFFF []).run = true ∧ ∀ a : Word, codeRead (st 0xFFFF []) a = 0x00 :=
  ⟨_, rfl, rfl, fun _ => rfl⟩

/-- The step clauses of MOV, ADD, SJMP and the default handler, each at the last address. -/
theorem witness_mov_step : (st 0xFFFF [(0xFFFF, 0x74)]).run = true ∧ opcodeAt (st 0xFFFF [(0xFFFF, 0x74)]) = 0x74 := by decide
theorem witness_add_step : (st 0xFFFF [(0xFFFF, 0x24)]).run = true ∧ opcodeAt (st 0xFFFF [(0xFFFF, 0x24)]) = 0x24 := by decide
theorem witness_sjmp_step : (st 0xFFFF [(0xFFFF, 0x80)]).run = true ∧ opcodeAt (st 0xFFFF [(0xFFFF, 0x80)]) = 0x80 := by decide
theorem witness_sjmp_self : (st 0xFFFF [(0, 0xFE), (0xFFFF, 0x80)]).run = true ∧
    opcodeAt (st 0xFFFF [(0, 0xFE), (0xFFFF, 0x80)]) = 0x80 ∧ operandAt (st 0xFFFF [(0, 0xFE), (0xFFFF, 0x80)]) = 0xFE := by decide
theorem witness_unimplemented_step : (st 0xFFFF [(0xFFFF, 0x81)]).run = true ∧ opcodeAt (st 0xFFFF [(0xFFFF, 0x81)]) ≠ 0x00 ∧
    opcodeAt (st 0xFFFF [(0xFFFF, 0x81)]) ≠ 0x24 ∧ opcodeAt (st 0xFFFF [(0xFFFF, 0x81)]) ≠ 0x74 ∧
    opcodeAt (st 0xFFFF [(0xFFFF, 0x81)]) ≠ 0x80 := by decide

/-- ImplementedInstructionsFrame: an instruction that is none of the default handler's, and its next state. A is kept
under SJMP, PSW under MOV, PC under ADD. -/
theorem witness_frame_add : (∀ o, Instr.addAImm 1 ≠ .unimplemented o) ∧ ∃ t, exec (.addAImm 1) State.reset = .next t :=
  ⟨fun _ h => (by cases h), _, rfl⟩
theorem witness_frame_a_kept : (∀ o, Instr.sjmpRel 1 ≠ .unimplemented o) ∧ (∀ d, Instr.sjmpRel 1 ≠ .addAImm d ∧ Instr.sjmpRel 1 ≠ .movAImm d) :=
  ⟨fun _ h => (by cases h), fun _ => ⟨fun h => (by cases h), fun h => (by cases h)⟩⟩
theorem witness_frame_psw_kept : (∀ o, Instr.movAImm 1 ≠ .unimplemented o) ∧ (∀ d, Instr.movAImm 1 ≠ .addAImm d) :=
  ⟨fun _ h => (by cases h), fun _ h => (by cases h)⟩
theorem witness_frame_pc_kept : (∀ o, Instr.addAImm 1 ≠ .unimplemented o) ∧ (∀ r, Instr.addAImm 1 ≠ .sjmpRel r) :=
  ⟨fun _ h => (by cases h), fun _ h => (by cases h)⟩

/-- DefaultHandlerFrame. -/
theorem witness_frame_default : ∃ t, exec (.unimplemented 0xA5) State.reset = .next t := ⟨_, rfl⟩

/-- LoadStoresAllBytesOrNone: the largest load that fits at 0xFFFF, the smallest that does not, the empty one; a byte
inside, an address outside. -/
theorem witness_load_fits : Canonical State.reset ∧ (0xFFFF : Word).toNat + [(0x74 : Byte)].length ≤ 65536 ∧
    (0xFFFE : Word).toNat < (0xFFFF : Word).toNat := by decide
theorem witness_load_exceeds : Canonical State.reset ∧ (0xFFFF : Word).toNat + [(1 : Byte), 2].length > 65536 := by decide
theorem witness_load_empty : Canonical State.reset ∧ (0x1234 : Word).toNat + ([] : List Byte).length ≤ 65536 := by decide

/-- NextFetchSeesTheLoad, at the last loaded byte. -/
theorem witness_next_fetch : Canonical (st 0xFFFF []) ∧ (0xFFFE : Word).toNat + [(1 : Byte), 2].length ≤ 65536 ∧
    1 < [(1 : Byte), 2].length ∧ (st 0xFFFF []).pc.toNat = (0xFFFE : Word).toNat + 1 := by decide

/-- RunStepsUntilBudgetOrHalt: a run that halts before its budget, after a step from a running state. -/
theorem witness_run_halts_early : (runFor 2 (st 0 [(0, 0xA5)])).steps = 1 ∧ (runFor 2 (st 0 [(0, 0xA5)])).status = .halted := by
  decide

/-- InstancesAreIsolated: an instance that is there and another. -/
theorem witness_instances : [State.reset, haltedSt][1]? = some haltedSt ∧ (0 : Nat) ≠ 1 := by decide

end Sys2Proof.Tests
end

/-! ## The four state statements of 10_state.md

A step's frame and its effect on the fault record, each read off `step_next_cases` once; the step in equations, one per
line of D (R85); and predicates that a step, a command and a session keep. -/

section
namespace Sys2Proof.Machine

/-! ### Opcodes and CY -/

theorem not_mem_implementedOpcodes {o : Byte} :
    o ∉ Config.implementedOpcodes ↔ o ≠ 0x00 ∧ o ≠ 0x24 ∧ o ≠ 0x74 ∧ o ≠ 0x80 := by
  simp only [Config.implementedOpcodes, List.mem_cons, List.not_mem_nil, or_false, not_or, ne_eq]

theorem cyOf_withCy (psw : Byte) (c : Bool) : cyOf (withCy psw c) = c := withCy_getLsbD psw c 0

/-- A PSW whose reserved bits are zero is CY alone (R26). -/
theorem psw_eq_cy_of_reserved {psw : Byte} (h : ∀ i, 1 ≤ i → psw.getLsbD i = false) : psw = 0x00 ∨ psw = 0x01 := by
  have hpsw : psw = withCy 0x00 (cyOf psw) := by
    refine BitVec.eq_of_getLsbD_eq fun i _ => ?_
    rw [withCy_getLsbD]
    split
    · next h0 => rw [h0]; rfl
    · next h0 => exact (h i (by omega)).trans BitVec.getLsbD_zero.symm
  rw [hpsw]
  cases cyOf psw
  · exact .inl rfl
  · exact .inr rfl

/-! ### What a step leaves unchanged -/

/-- The elements of R20 that no instruction writes: `t` has them as `s` does. PSW counts without CY (R26). -/
structure KeepsUnused (s t : State) : Prop where
  b : t.b = s.b
  sp : t.sp = s.sp
  dptr : t.dptr = s.dptr
  code : t.code = s.code
  ram : t.ram = s.ram
  psw_reserved : ∀ i, 1 ≤ i → t.psw.getLsbD i = s.psw.getLsbD i

theorem step_keepsUnused {s t : State} (h : step s = .next t) : KeepsUnused s t := by
  obtain ⟨-, ⟨-, rfl⟩ | ⟨-, hadd⟩ | ⟨-, rfl⟩ | ⟨-, rfl⟩ | ⟨-, rfl⟩⟩ := step_next_cases h
  case inr.inl =>
    cases hadd
    refine ⟨rfl, rfl, rfl, rfl, rfl, fun i hi => ?_⟩
    exact (withCy_getLsbD _ _ i).trans (if_neg (by omega))
  all_goals exact ⟨rfl, rfl, rfl, rfl, rfl, fun _ _ => rfl⟩

/-- A step either leaves RUN true and the fault record alone, or halts on an unimplemented opcode and records it with
its address, PC being one past it (R107, R176). -/
theorem step_run_record {s t : State} (h : step s = .next t) :
    (t.run = true ∧ t.cause = s.cause ∧ t.fopc = s.fopc ∧ t.fpc = s.fpc) ∨
    (t.run = false ∧ t.cause = .unimplementedOpcode ∧ t.fopc = codeRead s s.pc ∧ t.fpc = s.pc ∧ t.pc = s.pc + 1 ∧
      codeRead s s.pc ∉ Config.implementedOpcodes) := by
  obtain ⟨hrun, ⟨-, rfl⟩ | ⟨-, hadd⟩ | ⟨-, rfl⟩ | ⟨-, rfl⟩ | ⟨hop, rfl⟩⟩ := step_next_cases h
  case inr.inl => cases hadd; exact .inl ⟨hrun, rfl, rfl, rfl⟩
  case inr.inr.inr.inr => exact .inr ⟨rfl, rfl, rfl, rfl, rfl, hop⟩
  all_goals exact .inl ⟨hrun, rfl, rfl, rfl⟩

/-! ### The invariant along steps -/

theorem step_keeps_inv {s t : State} (hs : Inv s) (h : step s = .next t) : Inv t := by
  have keep := step_keepsUnused h
  have hrun : s.run = true := (step_next_cases h).1
  refine
    { canonical := by simpa only [Canonical, keep.code, keep.ram] using hs.canonical
      b_zero := keep.b.trans hs.b_zero
      dptr_zero := keep.dptr.trans hs.dptr_zero
      sp_reset := keep.sp.trans hs.sp_reset
      ram_zero := fun a => (ramRead_congr keep.ram a).trans (hs.ram_zero a)
      psw_reserved := fun i hi => (keep.psw_reserved i hi).trans (hs.psw_reserved i hi)
      running_record := fun ht => ?_
      halted_record := fun ht => ?_ }
  · rcases step_run_record h with ⟨-, hcause, hfopc, hfpc⟩ | ⟨hf, -⟩
    · rw [hcause, hfopc, hfpc]
      exact hs.running_record hrun
    · simp [hf] at ht
  · rcases step_run_record h with ⟨hr, -⟩ | ⟨-, hcause, hfopc, hfpc, hpc, hop⟩
    · simp [hr] at ht
    · exact ⟨hcause, hfopc ▸ hop, by rw [hpc, hfpc]⟩

/-- Settles O3: a step keeps the unused elements, and writes the fault record exactly when it clears RUN. -/
theorem stepKeepsInvariant : Obligations.StepKeepsInvariant := fun _ _ => step_keeps_inv

/-- Settles O18: the frame of a step, its memories read byte by byte. -/
theorem noStepWritesUnusedStateOrMemory : Obligations.NoStepWritesUnusedStateOrMemory := by
  intro s t h
  have keep := step_keepsUnused h
  exact ⟨keep.b, keep.sp, keep.dptr, ⟨codeRead_congr keep.code, ramRead_congr keep.ram⟩,
    fun i hi _ => keep.psw_reserved i hi⟩

/-! ### The step in equations, one per line of D (R85) -/

section
variable {s : State} (hrun : s.run = true)
include hrun

theorem step_nop (hop : codeRead s s.pc = 0x00) : step s = .next (s.setPc (s.pc + 1)) := by
  rw [step_of_run hrun, fetchInstr_f1 (i := .nop) (by rw [hop, handlerOf_nop]), exec_nop]

theorem step_addAImm (hop : codeRead s s.pc = 0x24) :
    step s = exec (.addAImm (codeRead s (s.pc + 1))) (s.setPc (s.pc + 1 + 1)) := by
  rw [step_of_run hrun, fetchInstr_f2 (mk := .addAImm) (by rw [hop, handlerOf_addAImm])]

theorem step_movAImm (hop : codeRead s s.pc = 0x74) :
    step s = .next ((s.setPc (s.pc + 1 + 1)).setA (codeRead s (s.pc + 1))) := by
  rw [step_of_run hrun, fetchInstr_f2 (mk := .movAImm) (by rw [hop, handlerOf_movAImm]), exec_movAImm]

theorem step_sjmpRel (hop : codeRead s s.pc = 0x80) :
    step s = .next (s.setPc (jumpTarget (s.pc + 1 + 1) (codeRead s (s.pc + 1)))) := by
  rw [step_of_run hrun, fetchInstr_f2 (mk := .sjmpRel) (by rw [hop, handlerOf_sjmpRel]), exec_sjmpRel]
  rfl

theorem step_unimplemented (hop : codeRead s s.pc ∉ Config.implementedOpcodes) :
    step s = .next (raiseUnimplementedOpcode (codeRead s s.pc) s.pc (s.setPc (s.pc + 1))) := by
  rw [step_of_run hrun, fetchInstr_f1 (handlerOf_default hop), exec_unimplemented, State.setPc_pc, BitVec.add_sub_cancel]

end

/-- Settles O20: the step's equation for the opcode at PC names A, PC and CODE alone, and it is the same opcode in both
states. CY after an ADD is the carry of the sum (R130), whatever PSW was. -/
theorem noInstructionReadsUnusedState : Obligations.NoInstructionReadsUnusedState := by
  intro s psw b sp fopc dptr fpc cause ram hrun
  have not_halted {p : Prop} (h : s.run = false) : p := by simp [hrun] at h
  rcases opcode_cases (codeRead s s.pc) with hop | hop | hop | hop | hop
  case inl =>
    exact ⟨_, _, step_nop hrun hop, step_nop hrun hop, rfl, rfl, rfl, not_halted,
      fun hadd => absurd (hop.symm.trans hadd) (by decide), fun _ => rfl⟩
  case inr.inl =>
    refine ⟨_, _, step_addAImm hrun hop, step_addAImm hrun hop, rfl, rfl, rfl, not_halted,
      fun _ => ?_, fun hne => absurd hop hne⟩
    exact (cyOf_withCy _ _).trans (cyOf_withCy _ _).symm
  case inr.inr.inl =>
    exact ⟨_, _, step_movAImm hrun hop, step_movAImm hrun hop, rfl, rfl, rfl, not_halted,
      fun hadd => absurd (hop.symm.trans hadd) (by decide), fun _ => rfl⟩
  case inr.inr.inr.inl =>
    exact ⟨_, _, step_sjmpRel hrun hop, step_sjmpRel hrun hop, rfl, rfl, rfl, not_halted,
      fun hadd => absurd (hop.symm.trans hadd) (by decide), fun _ => rfl⟩
  case inr.inr.inr.inr =>
    exact ⟨_, _, step_unimplemented hrun hop, step_unimplemented hrun hop, rfl, rfl, rfl,
      fun _ => ⟨rfl, rfl, rfl⟩, fun hadd => absurd hadd (not_mem_implementedOpcodes.1 hop).2.1, fun _ => rfl⟩

/-! ### What every step keeps, every command and every session keeps -/

section
variable {P : State → Prop} (hstep : ∀ s t, P s → step s = .next t → P t)
include hstep

theorem runLoop_preserves (n : Nat) (s : State) (hs : P s) : P (runLoop n s).2 := by
  induction n generalizing s with
  | zero => exact hs
  | succ n ih =>
    cases hrun : s.run with
    | false => rw [runLoop_halted hrun]; exact hs
    | true =>
      obtain ⟨t, ht⟩ := step_running hrun
      rw [runLoop_step ht]
      exact ih t (hstep s t hs ht)

theorem stepCommand_preserves {s : State} (hs : P s) : P (stepCommand s).1 := by
  cases hrun : s.run with
  | false => rw [stepCommand_halted hrun]; exact hs
  | true =>
    obtain ⟨t, ht⟩ := step_running hrun
    rw [stepCommand_step ht]
    exact hstep s t hs ht

/-- A predicate of the reset state that steps and fitting loads keep is kept by every command of the host (R150). -/
theorem command_preserves (hreset : P State.reset)
    (hload : ∀ s bytes (address : Word), P s → address.toNat + bytes.length ≤ 65536 →
      P (s.setCode (s.code.writeBytes address.toNat bytes)))
    (c : Command) (s : State) (hs : P s) : P (command c s).1 := by
  cases c with
  | reset => exact hreset
  | load bytes address =>
    change P (loadCommand bytes address s).1
    rcases Nat.lt_or_ge 65536 (address.toNat + bytes.length) with hbig | hfits
    · rw [loadCommand, loadCode_exceeds hbig]
      exact hs
    · rw [loadCommand, loadCode_fits hfits]
      exact hload s bytes address hs hfits
  | step => exact stepCommand_preserves hstep hs
  | run n => exact runLoop_preserves hstep n s hs
  | inspect elements => exact hs

end

theorem session_preserves {P : State → Prop} (hcmd : ∀ c s, P s → P (command c s).1) (cs : List Command) (s : State)
    (hs : P s) : P (session cs s).1 := by
  induction cs generalizing s with
  | nil => exact hs
  | cons c cs ih => exact ih _ (hcmd c s hs)

/-! ### The invariant of every reachable state -/

theorem load_keeps_inv (s : State) (bytes : List Byte) (address : Word) (hs : Inv s)
    (hfits : address.toNat + bytes.length ≤ 65536) : Inv (s.setCode (s.code.writeBytes address.toNat bytes)) :=
  { hs with canonical := ⟨Memory.wf_writeBytes bytes hs.canonical.1 hfits, hs.canonical.2⟩ }

theorem command_keeps_inv (c : Command) (s : State) (hs : Inv s) : Inv (command c s).1 :=
  command_preserves (fun _ _ => step_keeps_inv) Tests.inv_reset load_keeps_inv c s hs

theorem inv_of_reachable {s : State} (h : Reachable s) : Inv s := by
  obtain ⟨cs, rfl⟩ := h
  exact session_preserves command_keeps_inv cs _ Tests.inv_reset

/-- Settles O5: every reachable state meets the invariant, which says this of it. -/
theorem reachableStatesKeepUnusedElements : Obligations.ReachableStatesKeepUnusedElements := by
  intro s h
  have hs := inv_of_reachable h
  refine ⟨hs.b_zero, hs.dptr_zero, hs.sp_reset, hs.ram_zero, psw_eq_cy_of_reserved hs.psw_reserved, hs.running_record,
    fun hrun => ?_⟩
  obtain ⟨hcause, hfopc, -⟩ := hs.halted_record hrun
  exact ⟨hcause, not_mem_implementedOpcodes.1 hfopc⟩

end Sys2Proof.Machine
end

/-! ## The statements of 20_memory.md

Reads after a RAM write and after a load, first for any state and then for push, pop and the host's Load; and what a step
runs, from the two bytes at PC. -/

section
namespace Sys2Proof.Machine

/-! ### RAM writes, push and pop -/

theorem ramRead_ramWrite_same {s : State} (hs : Canonical s) (a v : Byte) : ramRead (ramWrite s a v) a = v :=
  Memory.read_write_same hs.2 a.toNat v

theorem ramRead_ramWrite_other (s : State) {a b : Byte} (hb : b ≠ a) (v : Byte) :
    ramRead (ramWrite s a v) b = ramRead s b :=
  Memory.read_write_other s.ram (fun h => hb (BitVec.eq_of_toNat_eq h)) v

/-- R57's two actions: SP is incremented, then the byte is written at the new SP. -/
theorem push_eq_ramWrite (s : State) (v : Byte) :
    push s v = ramWrite (s.setSp (pushAddress s.sp)) (pushAddress s.sp) v := rfl

@[simp] theorem push_sp (s : State) (v : Byte) : (push s v).sp = pushAddress s.sp := rfl

theorem ramRead_push_same {s : State} (hs : Canonical s) (v : Byte) : ramRead (push s v) (pushAddress s.sp) = v :=
  ramRead_ramWrite_same (s := s.setSp (pushAddress s.sp)) hs _ v

theorem ramRead_push_other (s : State) (v : Byte) {a : Byte} (ha : a ≠ pushAddress s.sp) :
    ramRead (push s v) a = ramRead s a :=
  ramRead_ramWrite_other (s.setSp (pushAddress s.sp)) ha v

/-- The pop's decrement undoes the push's increment, from every SP (R57, R58). -/
theorem spAfterPop_pushAddress (sp : Byte) : spAfterPop (pushAddress sp) = sp := BitVec.add_sub_cancel sp 1

/-- Settles O34: the two reads after a RAM write; it replaces RAM alone. -/
theorem ramWriteSetsItsByteAlone : Obligations.RamWriteSetsItsByteAlone := fun s a v hs =>
  ⟨ramRead_ramWrite_same hs a v, fun _ hb => ramRead_ramWrite_other s hb v, rfl⟩

/-- Settles O31: a push is a RAM write at the incremented SP. -/
theorem pushStoresAtTheIncrementedPointer : Obligations.PushStoresAtTheIncrementedPointer := fun s v hs =>
  ⟨BitVec.toNat_add s.sp 1, push_sp s v, ramRead_push_same hs v, fun _ ha => ramRead_push_other s v ha, rfl⟩

/-- Settles O32: `pop_eq`, with the decrement of SP written modulo 256. -/
theorem popReadsThenDecrements : Obligations.PopReadsThenDecrements := by
  intro s
  rw [pop_eq]
  refine ⟨rfl, ?_, rfl⟩
  change ((s.sp - 1).toNat : Int) = ((s.sp.toNat : Int) - 1) % 256
  bv_omega

/-- Settles O33: the pop reads where the push stored, and writes no byte of RAM. -/
theorem popReturnsThePushedByte : Obligations.PopReturnsThePushedByte := fun s v hs =>
  ⟨ramRead_push_same hs v, spAfterPop_pushAddress s.sp, fun _ ha => ramRead_push_other s v ha⟩

/-! ### The host's Load -/

theorem command_load_fits {bytes : List Byte} {address : Word} (h : address.toNat + bytes.length ≤ 65536) (s : State) :
    command (.load bytes address) s = (s.setCode (s.code.writeBytes address.toNat bytes), .load .ok) := by
  simp only [command, loadCommand, loadCode_fits h]

theorem command_load_exceeds {bytes : List Byte} {address : Word} (h : 65536 < address.toNat + bytes.length) (s : State) :
    command (.load bytes address) s = (s, .load .capacityExceeded) := by
  simp only [command, loadCommand, loadCode_exceeds h]

/-- Where a code address stands among the loaded bytes, it reads as the byte loaded there. -/
theorem codeRead_load_inside {s : State} (hs : Canonical s) {bytes : List Byte} {address a : Word} {i : Nat}
    (hi : i < bytes.length) (hfits : address.toNat + bytes.length ≤ 65536) (ha : a.toNat = address.toNat + i) :
    codeRead (s.setCode (s.code.writeBytes address.toNat bytes)) a = bytes[i] := by
  rw [codeRead, ha]
  exact Memory.read_writeBytes_inside bytes hi hs.1 hfits

theorem codeRead_load_outside (s : State) {bytes : List Byte} {address a : Word}
    (ha : a.toNat < address.toNat ∨ address.toNat + bytes.length ≤ a.toNat) :
    codeRead (s.setCode (s.code.writeBytes address.toNat bytes)) a = codeRead s a :=
  Memory.read_writeBytes_outside bytes s.code ha

/-- Settles O35: R71's two cases, and the reads inside and outside the bytes of a load that fits. -/
theorem loadStoresAllBytesOrNone : Obligations.LoadStoresAllBytesOrNone := by
  intro bytes address s hs
  refine ⟨fun hbig => command_load_exceeds hbig s, fun hfits => ⟨_, command_load_fits hfits s, ?_, ?_, rfl, ?_⟩⟩
  · intro i hi
    exact codeRead_load_inside hs hi hfits (by rw [BitVec.toNat_ofNat, Nat.mod_eq_of_lt (by omega)])
  · intro a ha
    exact codeRead_load_outside s ha
  · rintro rfl
    rfl

/-- Settles O36: a load keeps PC, so the fetch reads the loaded byte that stands there. -/
theorem nextFetchSeesTheLoad : Obligations.NextFetchSeesTheLoad := by
  intro bytes address s i hi hs hfits hpc
  rw [command_load_fits hfits]
  exact codeRead_load_inside hs hi hfits hpc

/-! ### The step runs what the two bytes at PC decode to -/

theorem instrLength_of_f1 {opcode : Byte} {i : Instr} (h : handlerOf opcode = .f1 i) : instrLength i = 1 := by
  unfold handlerOf at h
  split_ifs at h <;> cases h <;> rfl

theorem instrLength_of_f2 {opcode : Byte} {mk : Byte → Instr} (h : handlerOf opcode = .f2 mk) (operand : Byte) :
    instrLength (mk operand) = 2 := by
  unfold handlerOf at h
  split_ifs at h <;> cases h <;> rfl

/-- A step's fetches give the decoded instruction and move PC past its bytes (R80, R103). -/
theorem fetchInstr_of_decode {s : State} {i : Instr} {rest : List Byte}
    (h : decode [codeRead s s.pc, codeRead s (s.pc + 1)] = .ok (i, rest)) :
    fetchInstr s = (i, s.setPc (s.pc + BitVec.ofNat 16 (instrLength i))) := by
  cases hh : handlerOf (codeRead s s.pc) with
  | f1 j =>
    rw [decode_f1 hh] at h
    cases h
    rw [fetchInstr_f1 hh, instrLength_of_f1 hh]
    rfl
  | f2 mk =>
    rw [decode_f2 hh] at h
    cases h
    rw [fetchInstr_f2 hh, instrLength_of_f2 hh, BitVec.add_assoc]
    rfl

theorem step_of_decode {s : State} (hrun : s.run = true) {i : Instr} {rest : List Byte}
    (h : decode [codeRead s s.pc, codeRead s (s.pc + 1)] = .ok (i, rest)) :
    step s = exec i (s.setPc (s.pc + BitVec.ofNat 16 (instrLength i))) := by
  rw [step_of_run hrun, fetchInstr_of_decode h]

theorem decode_of_decodeTableWord {nbits w : Nat} {i : Instr} (h : decodeTableWord nbits w = some i) :
    ∃ rest, decode [(tableBytes nbits w).1, (tableBytes nbits w).2] = .ok (i, rest) := by
  unfold decodeTableWord at h
  split at h
  · next j rest hd =>
    cases h
    exact ⟨rest, hd⟩
  · cases h

/-! The word is stored in two writes: the second one, at PC + 1, leaves the first, also where PC + 1 wraps to 0. -/

theorem codeRead_withFetchWord_pc {s : State} (hs : Canonical s) (nbits w : Nat) :
    codeRead (s.withFetchWord nbits w) s.pc = (tableBytes nbits w).1 := by
  have hne : s.pc.toNat ≠ (s.pc + 1).toNat := by bv_omega
  exact (Memory.read_write_other _ hne _).trans (Memory.read_write_same hs.1 _ _)

theorem codeRead_withFetchWord_pc_add_one {s : State} (hs : Canonical s) (nbits w : Nat) :
    codeRead (s.withFetchWord nbits w) (s.pc + 1) = (tableBytes nbits w).2 :=
  Memory.read_write_same (Memory.wf_write hs.1 s.pc.isLt _) _ _

/-- Settles O21: CODE at PC holds the word's two bytes, and the step runs what they decode to. -/
theorem fetchWordRunsTheDecodedWord : Obligations.FetchWordRunsTheDecodedWord := by
  intro s nbits w i hs h
  obtain ⟨rest, hd⟩ := decode_of_decodeTableWord h
  rw [← codeRead_withFetchWord_pc hs, ← codeRead_withFetchWord_pc_add_one hs] at hd
  exact step_of_decode (s := s.withFetchWord nbits w) rfl hd

end Sys2Proof.Machine
end

/-! ## The statements of 30_encoding.md

Which opcodes each handler format of D stands for, and decode and encode from that; the displacement that reaches a
label; and what fetch and the meanings do with the same instruction in another CODE. -/

section
namespace Sys2Proof

/-! ### Decode and encode -/

theorem wellFormed_unimplemented {opcode : Byte} :
    (Instr.unimplemented opcode).wellFormed = true ↔ opcode ∉ Config.implementedOpcodes := by
  simp [Instr.wellFormed]

/-- The lines of D without an operand (R81, R85). -/
theorem handlerOf_f1_cases {opcode : Byte} {i : Instr} (h : handlerOf opcode = .f1 i) :
    (opcode = 0x00 ∧ i = .nop) ∨ (opcode ∉ Config.implementedOpcodes ∧ i = .unimplemented opcode) := by
  rcases opcode_cases opcode with rfl | rfl | rfl | rfl | hop
  · cases h; exact .inl ⟨rfl, rfl⟩
  · cases h
  · cases h
  · cases h
  · rw [handlerOf_default hop] at h; cases h; exact .inr ⟨hop, rfl⟩

/-- The lines of D with an operand (R82, R85). -/
theorem handlerOf_f2_cases {opcode : Byte} {mk : Byte → Instr} (h : handlerOf opcode = .f2 mk) :
    (opcode = 0x24 ∧ mk = .addAImm) ∨ (opcode = 0x74 ∧ mk = .movAImm) ∨ (opcode = 0x80 ∧ mk = .sjmpRel) := by
  rcases opcode_cases opcode with rfl | rfl | rfl | rfl | hop
  · cases h
  · cases h; exact .inl ⟨rfl, rfl⟩
  · cases h; exact .inr (.inl ⟨rfl, rfl⟩)
  · cases h; exact .inr (.inr ⟨rfl, rfl⟩)
  · rw [handlerOf_default hop] at h; cases h

theorem wellFormed_and_encode_of_f1 {opcode : Byte} {i : Instr} (h : handlerOf opcode = .f1 i) :
    i.wellFormed = true ∧ encode i = [opcode] := by
  obtain ⟨rfl, rfl⟩ | ⟨hop, rfl⟩ := handlerOf_f1_cases h
  · exact ⟨rfl, rfl⟩
  · exact ⟨wellFormed_unimplemented.2 hop, rfl⟩

theorem wellFormed_and_encode_of_f2 {opcode : Byte} {mk : Byte → Instr} (h : handlerOf opcode = .f2 mk)
    (operand : Byte) : (mk operand).wellFormed = true ∧ encode (mk operand) = [opcode, operand] := by
  obtain ⟨rfl, rfl⟩ | ⟨rfl, rfl⟩ | ⟨rfl, rfl⟩ := handlerOf_f2_cases h <;> exact ⟨rfl, rfl⟩

/-- What the decoder takes off the front when it answers: an opcode alone, or an opcode and its operand (R80). -/
theorem decode_ok_cases {bytes rest : List Byte} {i : Instr} (h : decode bytes = .ok (i, rest)) :
    (∃ opcode, handlerOf opcode = .f1 i ∧ bytes = opcode :: rest) ∨
    (∃ opcode operand mk, handlerOf opcode = .f2 mk ∧ i = mk operand ∧ bytes = opcode :: operand :: rest) := by
  cases bytes with
  | nil => cases h
  | cons opcode tail =>
    cases hh : handlerOf opcode with
    | f1 j =>
      rw [decode_f1 hh] at h
      cases h
      exact .inl ⟨opcode, hh, rfl⟩
    | f2 mk =>
      cases tail with
      | nil => rw [decode_f2_truncated hh] at h; cases h
      | cons operand tail =>
        rw [decode_f2 hh] at h
        cases h
        exact .inr ⟨opcode, operand, mk, hh, rfl, rfl⟩

/-- Settles O8: each constructor's first byte selects its own handler, by well-formedness the default one's too. -/
theorem decodeInvertsEncode : Obligations.DecodeInvertsEncode := by
  intro i rest hwf
  cases i with
  | nop => exact decode_f1 handlerOf_nop rest
  | addAImm imm8 => exact decode_f2 handlerOf_addAImm imm8 rest
  | movAImm imm8 => exact decode_f2 handlerOf_movAImm imm8 rest
  | sjmpRel rel8 => exact decode_f2 handlerOf_sjmpRel rel8 rest
  | unimplemented opcode => exact decode_f1 (handlerOf_default (wellFormed_unimplemented.1 hwf)) rest

/-- Settles O9: the bytes taken are those of the handler's format, and the format fixes encoding and length. -/
theorem decodedBytesAreTheEncoding : Obligations.DecodedBytesAreTheEncoding := by
  intro bytes rest i h
  obtain ⟨opcode, hh, rfl⟩ | ⟨opcode, operand, mk, hh, rfl, rfl⟩ := decode_ok_cases h
  · obtain ⟨hwf, henc⟩ := wellFormed_and_encode_of_f1 hh
    rw [henc, Machine.instrLength_of_f1 hh]
    exact ⟨hwf, rfl, rfl, .inl rfl⟩
  · obtain ⟨hwf, henc⟩ := wellFormed_and_encode_of_f2 hh operand
    rw [henc, Machine.instrLength_of_f2 hh]
    exact ⟨hwf, rfl, rfl, .inr rfl⟩

/-- Settles O10: the lines of D, each read through the decoder. -/
theorem dispatchMapIsTheTable : Obligations.DispatchMapIsTheTable := fun rest =>
  ⟨decode_f1 handlerOf_nop rest, fun ii => decode_f2 handlerOf_addAImm ii rest,
    fun ii => decode_f2 handlerOf_movAImm ii rest, fun rr => decode_f2 handlerOf_sjmpRel rr rest,
    fun _ h0 h1 h2 h3 =>
      decode_f1 (handlerOf_default (Machine.not_mem_implementedOpcodes.2 ⟨h0, h1, h2, h3⟩)) rest⟩

/-- Settles O11: each word is the line of D of its row, at one operand. -/
theorem tableWordsDecode : Obligations.TableWordsDecode := by
  obtain ⟨hnop, hadd, hmov, hsjmp, hdefault⟩ := dispatchMapIsTheTable []
  exact ⟨hnop, hadd 3, hmov 5, hsjmp (-2), hdefault 0xA5 (by decide) (by decide) (by decide) (by decide)⟩

end Sys2Proof

namespace Sys2Proof.Machine

/-! ### The displacement that reaches a label -/

/-- R140's target in exact arithmetic. -/
theorem toNat_jumpTarget (next : Word) (rel8 : Byte) :
    ((jumpTarget next rel8).toNat : Int) = ((next.toNat : Int) + rel8.toInt) % 65536 := by
  have hsext : sext16 rel8 = BitVec.ofInt 16 rel8.toInt := rfl
  rw [jumpTarget, hsext, BitVec.toNat_add, BitVec.toNat_ofInt]
  omega

theorem sjmpOf_eq_some {d : Int} {i : Instr} :
    sjmpOf d = some i ↔ (-128 ≤ d ∧ d ≤ 127) ∧ i = .sjmpRel (BitVec.ofInt 8 d) := by
  rw [sjmpOf, Option.ite_none_right_eq_some, Option.some.injEq, eq_comm (a := i)]

theorem sjmpOf_eq_none {d : Int} : sjmpOf d = none ↔ ¬(-128 ≤ d ∧ d ≤ 127) := by
  simp [sjmpOf]

/-- R84's two's complement gives back every displacement R90 allows. -/
theorem toInt_displacementByte {d : Int} (h : -128 ≤ d ∧ d ≤ 127) : (BitVec.ofInt 8 d).toInt = d := by
  rw [BitVec.toInt_ofInt]
  exact Int.bmod_eq_of_le (by omega) (by omega)

/-- R90's distance is the one signed 16-bit number that leads from two past the line's address to the label. -/
theorem reaches_label_iff {p label : Word} {r : Int} (h1 : -32768 ≤ r) (h2 : r ≤ 32767) :
    ((p.toNat : Int) + 2 + r) % 65536 = label.toNat ↔ r = labelDistance p label := by
  rw [labelDistance]
  omega

theorem jumpTarget_labelDistance {p label : Word} (h : -128 ≤ labelDistance p label ∧ labelDistance p label ≤ 127) :
    jumpTarget (p + 2) (BitVec.ofInt 8 (labelDistance p label)) = label := by
  have htarget := toNat_jumpTarget (p + 2) (BitVec.ofInt 8 (labelDistance p label))
  have hnext : (p + 2).toNat = (p.toNat + 2) % 65536 := BitVec.toNat_add p 2
  have hreach := (reaches_label_iff (p := p) (label := label) (by omega) (by omega)).2 rfl
  rw [toInt_displacementByte h] at htarget
  exact BitVec.eq_of_toNat_eq (by omega)

/-- Settles O12: a displacement reaches the label only if it is R90's distance, and the distance does reach it. -/
theorem labelFormReachesItsLabel : Obligations.LabelFormReachesItsLabel := by
  intro p label name
  constructor
  · intro i hi s hpc
    obtain ⟨hrange, rfl⟩ := sjmpOf_eq_some.1 hi
    refine ⟨_, exec_sjmpRel _ s, ?_⟩
    rw [State.setPc_pc, hpc]
    exact jumpTarget_labelDistance hrange
  · refine sjmpOf_eq_none.trans ⟨fun hout r h1 h2 hr => ?_, fun hnone ⟨h1, h2⟩ => ?_⟩
    · rw [reaches_label_iff (by omega) (by omega)] at hr
      exact hout (hr ▸ ⟨h1, h2⟩)
    · exact hnone _ h1 h2 ((reaches_label_iff (by omega) (by omega)).2 rfl)

/-! ### The step in another CODE that holds the same instruction -/

/-- Once the fetches are done, no meaning reads or writes CODE. -/
theorem exec_setCode {i : Instr} {s t : State} (h : exec i s = .next t) (m : Memory) :
    exec i (s.setCode m) = .next (t.setCode m) := by
  cases i <;> cases h <;> rfl

/-- The fetches read the opcode at PC and, where D gives it an operand, the byte after it (R80, R87). -/
theorem fetchInstr_setCode {s : State} {m : Memory} (hop : codeRead (s.setCode m) s.pc = codeRead s s.pc)
    (hoperand : codeRead s s.pc = 0x24 ∨ codeRead s s.pc = 0x74 ∨ codeRead s s.pc = 0x80 →
      codeRead (s.setCode m) (s.pc + 1) = codeRead s (s.pc + 1)) :
    fetchInstr (s.setCode m) = ((fetchInstr s).1, (fetchInstr s).2.setCode m) := by
  cases hh : handlerOf (codeRead s s.pc) with
  | f1 i =>
    rw [fetchInstr_f1 hh, fetchInstr_f1 (s := s.setCode m) (hop ▸ hh)]
    rfl
  | f2 mk =>
    have hsame : codeRead (s.setCode m) (s.pc + 1) = codeRead s (s.pc + 1) :=
      hoperand ((handlerOf_f2_cases hh).imp And.left (Or.imp And.left And.left))
    rw [fetchInstr_f2 hh, fetchInstr_f2 (s := s.setCode m) (hop ▸ hh), State.setCode_pc, hsame]
    rfl

/-- Settles O19: the fetches give the same instruction, and its meaning does not see CODE. -/
theorem stepSeesOnlyItsInstructionBytes : Obligations.StepSeesOnlyItsInstructionBytes := by
  intro s m hrun hop hoperand
  obtain ⟨t, ht⟩ := step_running hrun
  refine ⟨t, ht, ?_⟩
  change step (s.setCode m) = .next (t.setCode m)
  rw [step_of_run hrun] at ht
  rw [step_of_run (s := s.setCode m) hrun, fetchInstr_setCode hop hoperand]
  exact exec_setCode ht m

end Sys2Proof.Machine
end

/-! ## The statements of 40_engine_and_dispatch.md

What a step's fetches consume; the protocol of R103, equation by equation against the step's own; the frame of exec;
and the loop of Run by one induction on its budget. -/

section
namespace Sys2Proof.Machine

open Sys2Proof.Statements

/-! ### Fetch, and the step after its fetches -/

/-- R101's increment, modulo 65536 in exact arithmetic. -/
theorem word_add_one_eq_ofNat (w : Word) : w + 1 = BitVec.ofNat 16 ((w.toNat + 1) % 65536) :=
  BitVec.eq_of_toNat_eq (by rw [BitVec.toNat_add, BitVec.toNat_ofNat, Nat.mod_mod]; rfl)

/-- Settles O13: D gives the opcode's format, and the format is the number of fetches. -/
theorem fetchIsTheSoleWayInstructionsAreConsumed : Obligations.FetchIsTheSoleWayInstructionsAreConsumed := by
  refine ⟨fun s => ⟨fetch_fst s, BitVec.toNat_add s.pc 1, rfl⟩, fun s hrun => ?_⟩
  rw [step_of_run hrun]
  cases hh : handlerOf (codeRead s s.pc) with
  | f1 i =>
    rw [fetchInstr_f1 hh]
    exact .inl ⟨i, decode_f1 hh [], rfl⟩
  | f2 mk =>
    rw [fetchInstr_f2 hh]
    exact .inr ⟨_, decode_f2_truncated hh, decode_f2 hh _ [], rfl⟩

/-- Settles O14: the step's fetches are the decoder's reading of the two bytes at PC. -/
theorem stepRunsTheDecodedInstruction : Obligations.StepRunsTheDecodedInstruction := fun _ _ _ hrun h =>
  step_of_decode hrun h

/-- Settles O27: the default handler's equation; and where CODE reads zero at PC the step is a NOP, which keeps RUN. -/
theorem unimplementedOpcodeHaltsWithItsRecord : Obligations.UnimplementedOpcodeHaltsWithItsRecord := by
  refine ⟨fun s hrun h0 h1 h2 h3 => ?_, fun s hrun hzero => ⟨_, step_nop hrun (hzero s.pc), hrun⟩⟩
  exact ⟨_, step_unimplemented hrun (not_mem_implementedOpcodes.2 ⟨h0, h1, h2, h3⟩), BitVec.toNat_add s.pc 1, rfl⟩

/-! ### The protocol of R103

`protocolStep` in one equation per line of D (R85), its exact arithmetic replaced by the model's word operations. -/

/-- `PSW.CY <- c` in exact arithmetic: PSW without its bit 0, plus the carry. -/
theorem withCy_eq_ofNat (psw : Byte) (c : Bool) :
    withCy psw c = BitVec.ofNat 8 (psw.toNat / 2 * 2 + if c then 1 else 0) := by
  revert psw c
  decide

theorem jumpTarget_eq_ofInt (next : Word) (rel8 : Byte) :
    jumpTarget next rel8 = BitVec.ofInt 16 (((next.toNat : Int) + rel8.toInt) % 65536) := by
  rw [← toNat_jumpTarget, BitVec.ofInt_natCast, BitVec.ofNat_toNat, BitVec.setWidth_eq]

theorem trunc8_eq_ofNat (sum : Nat) : trunc8 sum = BitVec.ofNat 8 (sum % 256) :=
  BitVec.eq_of_toNat_eq (by rw [trunc8, BitVec.toNat_ofNat, BitVec.toNat_ofNat, Nat.mod_mod])

/-- The opcode's own address from PC as the fetch left it (R107), in exact arithmetic. -/
theorem ofInt_pred_toNat_add_one (w : Word) : BitVec.ofInt 16 ((((w + 1).toNat : Int) - 1) % 65536) = w := by
  have hsucc : (w + 1).toNat = (w.toNat + 1) % 65536 := BitVec.toNat_add w 1
  refine BitVec.eq_of_toNat_eq ?_
  rw [BitVec.toNat_ofInt]
  omega

section
variable {s : State}

theorem protocolStep_nop (hop : codeRead s s.pc = 0x00) : protocolStep s = s.setPc (s.pc + 1) := by
  simp only [protocolStep, ← word_add_one_eq_ofNat, hop, reduceIte]
  rfl

theorem protocolStep_addAImm (hop : codeRead s s.pc = 0x24) :
    exec (.addAImm (codeRead s (s.pc + 1))) (s.setPc (s.pc + 1 + 1)) = .next (protocolStep s) := by
  rw [exec_addAImm, withCy_eq_ofNat, trunc8_eq_ofNat]
  simp only [carryOut, decide_eq_true_eq, protocolStep, ← word_add_one_eq_ofNat, hop]
  rfl

theorem protocolStep_movAImm (hop : codeRead s s.pc = 0x74) :
    protocolStep s = (s.setPc (s.pc + 1 + 1)).setA (codeRead s (s.pc + 1)) := by
  simp only [protocolStep, ← word_add_one_eq_ofNat, hop]
  rfl

theorem protocolStep_sjmpRel (hop : codeRead s s.pc = 0x80) :
    protocolStep s = s.setPc (jumpTarget (s.pc + 1 + 1) (codeRead s (s.pc + 1))) := by
  simp only [protocolStep, ← word_add_one_eq_ofNat, ← jumpTarget_eq_ofInt, hop]
  rfl

theorem protocolStep_unimplemented (hop : codeRead s s.pc ∉ Config.implementedOpcodes) :
    protocolStep s = raiseUnimplementedOpcode (codeRead s s.pc) s.pc (s.setPc (s.pc + 1)) := by
  obtain ⟨h0, h1, h2, h3⟩ := not_mem_implementedOpcodes.1 hop
  simp only [protocolStep, ← word_add_one_eq_ofNat, if_neg h0, if_neg h1, if_neg h2, if_neg h3]
  rw [ofInt_pred_toNat_add_one]
  rfl

end

/-- Settles O15: for each line of D, the step's equation is the protocol's. -/
theorem stepFollowsTheProtocol : Obligations.StepFollowsTheProtocol := by
  intro s hrun
  rcases opcode_cases (codeRead s s.pc) with hop | hop | hop | hop | hop
  · rw [step_nop hrun hop, protocolStep_nop hop]
  · rw [step_addAImm hrun hop, protocolStep_addAImm hop]
  · rw [step_movAImm hrun hop, protocolStep_movAImm hop]
  · rw [step_sjmpRel hrun hop, protocolStep_sjmpRel hop]
  · rw [step_unimplemented hrun hop, protocolStep_unimplemented hop]

/-! ### The frame of exec -/

section
variable {i : Instr} {s t : State} (h : exec i s = .next t)
include h

/-- No meaning writes B, SP, DPTR, a memory, or a bit of PSW but CY. -/
theorem exec_keepsUnused : KeepsUnused s t := by
  cases i with
  | addAImm d =>
    cases h
    exact ⟨rfl, rfl, rfl, rfl, rfl, fun k hk => (withCy_getLsbD _ _ k).trans (if_neg (by omega))⟩
  | _ => cases h; exact ⟨rfl, rfl, rfl, rfl, rfl, fun _ _ => rfl⟩

/-- RUN and the fault record are the default handler's to write (R176). -/
theorem exec_run_record (hi : ∀ o, i ≠ .unimplemented o) :
    t.run = s.run ∧ t.cause = s.cause ∧ t.fopc = s.fopc ∧ t.fpc = s.fpc := by
  cases i with
  | unimplemented o => exact absurd rfl (hi o)
  | _ => cases h; exact ⟨rfl, rfl, rfl, rfl⟩

theorem exec_a_eq (hi : ∀ d, i ≠ .addAImm d ∧ i ≠ .movAImm d) : t.a = s.a := by
  cases i with
  | addAImm d => exact absurd rfl (hi d).1
  | movAImm d => exact absurd rfl (hi d).2
  | _ => cases h; rfl

theorem exec_psw_eq (hi : ∀ d, i ≠ .addAImm d) : t.psw = s.psw := by
  cases i with
  | addAImm d => exact absurd rfl (hi d)
  | _ => cases h; rfl

theorem exec_pc_eq (hi : ∀ r, i ≠ .sjmpRel r) : t.pc = s.pc := by
  cases i with
  | sjmpRel r => exact absurd rfl (hi r)
  | _ => cases h; rfl

end

/-- Settles O29: what each meaning may write, read as what the others keep; the memories byte by byte. -/
theorem implementedInstructionsFrame : Obligations.ImplementedInstructionsFrame := by
  intro i s t himpl h
  have keep := exec_keepsUnused h
  obtain ⟨hrun, hcause, hfopc, hfpc⟩ := exec_run_record h himpl
  exact ⟨keep.b, keep.sp, keep.dptr, hrun, hcause, hfopc, hfpc, exec_a_eq h, exec_psw_eq h, exec_pc_eq h,
    fun k hk _ => keep.psw_reserved k hk, codeRead_congr keep.code, ramRead_congr keep.ram⟩

/-! ### Run -/

/-- Induction along Run's loop (R106): its budget is 0, the core is halted, or it takes a step and goes on. -/
theorem runLoop_induction {P : Nat → State → Nat × State → Prop} (zero : ∀ s, P 0 s (0, s))
    (halted : ∀ n s, s.run = false → P n s (0, s))
    (next : ∀ n s t r, step s = .next t → P n t r → P (n + 1) s (r.1 + 1, r.2)) (n : Nat) (s : State) :
    P n s (runLoop n s) := by
  induction n generalizing s with
  | zero => exact zero s
  | succ n ih =>
    cases hrun : s.run with
    | false => rw [runLoop_halted hrun]; exact halted _ s hrun
    | true =>
      obtain ⟨t, ht⟩ := step_running hrun
      rw [runLoop_step ht]
      exact next n s t _ ht (ih t)

theorem core_run_succ {s t : State} (h : step s = .next t) (k : Nat) :
    Host.Core.run Sys2Proof.core (k + 1) s = Host.Core.run Sys2Proof.core k t := by
  have hcore : Sys2Proof.core.step s = .next t := h
  simp only [Host.Core.run, hcore]

theorem runLoop_steps_le (n : Nat) (s : State) : (runLoop n s).1 ≤ n :=
  runLoop_induction (P := fun n _ r => r.1 ≤ n) (fun _ => le_rfl) (fun n _ _ => n.zero_le)
    (fun _ _ _ _ _ ih => Nat.succ_le_succ ih) n s

theorem runLoop_halted_of_lt (n : Nat) (s : State) : (runLoop n s).1 < n → (runLoop n s).2.run = false :=
  runLoop_induction (P := fun n _ r => r.1 < n → r.2.run = false) (fun _ h => absurd h (Nat.lt_irrefl 0))
    (fun _ _ hrun _ => hrun) (fun _ _ _ _ _ ih h => ih (Nat.lt_of_succ_lt_succ h)) n s

/-- The state a run leaves is that of as many plain steps as it counted. -/
theorem core_run_runLoop (n : Nat) (s : State) :
    Host.Core.run Sys2Proof.core (runLoop n s).1 s = .next (runLoop n s).2 :=
  runLoop_induction (P := fun _ s r => Host.Core.run Sys2Proof.core r.1 s = .next r.2) (fun _ => rfl) (fun _ _ _ => rfl)
    (fun _ _ _ _ h ih => (core_run_succ h _).trans ih) n s

/-- The core ran before each step a run counted. -/
theorem runLoop_running_before (n : Nat) (s : State) :
    ∀ j, j < (runLoop n s).1 → ∃ u : State, Host.Core.run Sys2Proof.core j s = .next u ∧ u.run = true := by
  refine runLoop_induction
    (P := fun _ s r => ∀ j, j < r.1 → ∃ u : State, Host.Core.run Sys2Proof.core j s = .next u ∧ u.run = true)
    (fun _ j hj => absurd hj j.not_lt_zero) (fun _ _ _ j hj => absurd hj j.not_lt_zero) (fun n s t r h ih j hj => ?_) n s
  cases j with
  | zero => exact ⟨s, rfl, (step_next_cases h).1⟩
  | succ j =>
    rw [core_run_succ h]
    exact ih j (Nat.lt_of_succ_lt_succ hj)

theorem runFor_status_eq_budgetExhausted_iff (n : Nat) (s : State) :
    (runFor n s).status = .budgetExhausted ↔ (runFor n s).state.run = true := by
  simp [runFor]

theorem runFor_status_eq_halted_iff (n : Nat) (s : State) :
    (runFor n s).status = .halted ↔ (runFor n s).state.run = false := by
  simp [runFor]

/-- Settles O38: the count and the state are the loop's. -/
theorem runStepsUntilBudgetOrHalt : Obligations.RunStepsUntilBudgetOrHalt := fun n s =>
  ⟨_, _, _, rfl, runLoop_steps_le n s, runLoop_halted_of_lt n s, core_run_runLoop n s, runLoop_running_before n s,
    runFor_status_eq_budgetExhausted_iff n s, runFor_status_eq_halted_iff n s⟩

/-- A loop with budget `m + n` is the loop with budget `m`, then the one with budget `n` from the state it left. -/
theorem runLoop_add (m n : Nat) (s : State) :
    runLoop (m + n) s = ((runLoop m s).1 + (runLoop n (runLoop m s).2).1, (runLoop n (runLoop m s).2).2) := by
  refine runLoop_induction (P := fun m s r => runLoop (m + n) s = (r.1 + (runLoop n r.2).1, (runLoop n r.2).2))
    (fun s => by rw [Nat.zero_add, Nat.zero_add]) (fun m s hrun => ?_) (fun m s t r h ih => ?_) m s
  · simp only [runLoop_halted hrun]
  · rw [Nat.add_right_comm, runLoop_step h, ih, Nat.add_right_comm]

/-- Settles O39: the loop composes, and the status is read off the state it leaves. -/
theorem runsCompose : Obligations.RunsCompose := by
  intro m n s
  unfold runFor
  rw [runLoop_add]
  exact ⟨rfl, rfl, rfl⟩

/-- Settles O16: a halted core's step, its Step command and its loop of any budget. -/
theorem haltedCoreTakesNoStep : Obligations.HaltedCoreTakesNoStep := by
  intro s hrun
  refine ⟨step_halted hrun, ?_, fun n => ?_⟩
  · rw [command, stepCommand_halted hrun]
  · simp [command, runFor, runLoop_halted hrun, hrun]

end Sys2Proof.Machine
end

/-! ## The statements of 41_nop_and_move.md

Each step clause is the step's equation for its opcode; over a zero-filled CODE every step is a NOP, so Run's loop
advances PC by its budget. -/

section
namespace Sys2Proof.Machine

/-- PC past a two-byte instruction, modulo 65536 (R80, R101). -/
theorem word_add_two_toNat (w : Word) : (w + 1 + 1).toNat = (w.toNat + 2) % 65536 := by
  rw [BitVec.add_assoc]
  exact BitVec.toNat_add w 2

/-- Over a CODE that reads zero everywhere (R120's corner case, R196) the loop takes its whole budget in NOPs, each of
which moves PC by one and leaves CODE and RUN as they are. -/
theorem runLoop_zeroCode (n : Nat) {s : State} (hrun : s.run = true) (hzero : ∀ a : Word, codeRead s a = 0x00) :
    runLoop n s = (n, s.setPc (s.pc + BitVec.ofNat 16 n)) := by
  induction n generalizing s with
  | zero => rw [BitVec.add_zero]; rfl
  | succ n ih =>
    have hpc : s.pc + 1 + BitVec.ofNat 16 n = s.pc + BitVec.ofNat 16 (n + 1) := by
      rw [BitVec.add_assoc, BitVec.add_comm 1, BitVec.ofNat_add]
      rfl
    rw [runLoop_step (step_nop hrun (hzero s.pc)), ih (s := s.setPc (s.pc + 1)) hrun hzero, State.setPc_pc, hpc]
    rfl

theorem runFor_zeroCode (n : Nat) {s : State} (hrun : s.run = true) (hzero : ∀ a : Word, codeRead s a = 0x00) :
    runFor n s = ⟨n, .budgetExhausted, s.setPc (s.pc + BitVec.ofNat 16 n)⟩ := by
  simp only [runFor, runLoop_zeroCode n hrun hzero, State.setPc_run, hrun, reduceIte]

/-- Settles O23: the NOP's equation; and 65536 of them move PC by 0 modulo 65536. -/
theorem nopOnlyAdvancesPc : Obligations.NopOnlyAdvancesPc := by
  refine ⟨fun s hrun hop => ⟨_, step_nop hrun hop, BitVec.toNat_add s.pc 1, rfl⟩, fun n s hn hrun hzero => ?_⟩
  have hpc : s.pc + BitVec.ofNat 16 n = s.pc := by
    rw [hn]
    exact BitVec.add_zero s.pc
  rw [runFor_zeroCode n hrun hzero, hpc]
  rfl

/-- Settles O24: the MOV's equation, which writes PC and A alone. -/
theorem movWritesTheImmediate : Obligations.MovWritesTheImmediate := fun s hrun hop =>
  ⟨_, step_movAImm hrun hop, rfl, word_add_two_toNat s.pc, rfl⟩

end Sys2Proof.Machine
end

/-! ## The statement of 42_arithmetic.md

What the meaning of ADD does in exact arithmetic, at `exec`; the step adds only PC. -/

section
namespace Sys2Proof.Machine

open Sys2Proof.Statements

/-- `sum > 255` (R130), where the sum is the exact one. -/
theorem carryOut_addSum_iff (a d : Byte) : carryOut (addSum a d) = true ↔ 255 < a.toNat + d.toNat := decide_eq_true_iff

theorem trunc8_addSum_toNat (a d : Byte) : (trunc8 (addSum a d)).toNat = (a.toNat + d.toNat) % 256 :=
  BitVec.toNat_ofNat ..

/-- R130 at the handler, whose immediate is already fetched. -/
theorem exec_addAImm_addEffect {d : Byte} {s t : State} (h : exec (.addAImm d) s = .next t) : AddEffect s d t := by
  have keep := exec_keepsUnused h
  cases h
  refine ⟨trunc8_addSum_toNat s.a d, ?carry, fun i hi _ => keep.psw_reserved i hi, rfl⟩
  case carry => exact (Bool.eq_iff_iff.1 (cyOf_withCy _ _)).trans (carryOut_addSum_iff s.a d)

/-- The effect of ADD is said of A and PSW alone, so it does not matter where PC stood. -/
theorem addEffect_setPc_iff {s t : State} {d : Byte} (p : Word) : AddEffect (s.setPc p) d t ↔ AddEffect s d t := Iff.rfl

/-- Settles O25: the step is ADD's meaning past its two fetches, and the meaning keeps PC. -/
theorem addWritesSumAndCarry : Obligations.AddWritesSumAndCarry := by
  intro s hrun hop
  obtain ⟨t, ht⟩ := step_running hrun
  have hexec := (step_addAImm hrun hop).symm.trans ht
  have hpc : t.pc = s.pc + 1 + 1 := exec_pc_eq hexec (by simp)
  exact ⟨t, ht, (addEffect_setPc_iff _).1 (exec_addAImm_addEffect hexec), hpc ▸ word_add_two_toNat s.pc⟩

end Sys2Proof.Machine
end

/-! ## The statement of 43_control_transfer.md

R140's target read from the instruction's own address, two below the PC its meaning is entered with. -/

section
namespace Sys2Proof.Machine

/-- R140's target in exact arithmetic, from the address of the SJMP. -/
theorem toNat_jumpTarget_add_two (p : Word) (rel8 : Byte) :
    ((jumpTarget (p + 1 + 1) rel8).toNat : Int) = ((p.toNat : Int) + 2 + rel8.toInt) % 65536 := by
  have htarget := toNat_jumpTarget (p + 1 + 1) rel8
  have hnext := word_add_two_toNat p
  omega

/-- A displacement of -2 leads an SJMP back to its own address. -/
theorem jumpTarget_neg_two (p : Word) : jumpTarget (p + 1 + 1) 0xFE = p := by
  have htarget := toNat_jumpTarget_add_two p 0xFE
  have hrel : (0xFE : Byte).toInt = -2 := by decide
  exact BitVec.eq_of_toNat_eq (by omega)

/-- Settles O26: the SJMP's equation, which writes PC alone. -/
theorem sjmpJumpsByTheSignedDisplacement : Obligations.SjmpJumpsByTheSignedDisplacement := by
  intro s hrun hop
  refine ⟨_, step_sjmpRel hrun hop, toNat_jumpTarget_add_two s.pc _, rfl, fun hself => ?self⟩
  case self =>
    have hpc : jumpTarget (s.pc + 1 + 1) (codeRead s (s.pc + 1)) = s.pc :=
      (congrArg (jumpTarget _) hself).trans (jumpTarget_neg_two s.pc)
    rw [hpc]
    rfl

end Sys2Proof.Machine
end

/-! ## The statements of 50_interfaces.md

What a host command does to a running and to a halted core, and to one of several instances. -/

section
namespace Sys2Proof.Machine

/-- Settles O4: fitting loads and steps keep the invariant and the reset state meets it; Run's loop is by induction on
its budget. -/
theorem hostCommandKeepsInvariant : Obligations.HostCommandKeepsInvariant := command_keeps_inv

/-! ### Step, Inspect and Reset -/

theorem command_step {s t : State} (h : step s = .next t) :
    command .step s = (t, .step (if t.run = true then .running else .halted)) := by
  rw [command, stepCommand_step h]

/-- Settles O37: a running core has a next state, and the Step command leaves it. -/
theorem stepCommandTakesOneStep : Obligations.StepCommandTakesOneStep := by
  refine ⟨fun s hrun => ?running, fun s hrun => (haltedCoreTakesNoStep s hrun).2.1⟩
  case running =>
    obtain ⟨t, ht⟩ := step_running hrun
    exact ⟨t, ht, command_step ht⟩

theorem command_inspect (elements : List Element) (s : State) :
    command (.inspect elements) s = (s, .inspect (elements.map (inspectElement s))) := rfl

/-- Settles O41: Inspect's equation, whose reply is a function of the state it leaves as it was. -/
theorem inspectReadsEveryElementAndChangesNothing : Obligations.InspectReadsEveryElementAndChangesNothing := by
  intro s address ramAddress elements
  refine ⟨?state, ?again, ?values⟩
  case state => rw [command_inspect]
  case again => simp only [command_inspect]
  case values => exact command_inspect _ s

/-- In Halted no command but Reset changes anything except CODE, which a Load may write (R155, R177, R178). -/
theorem command_halted {s : State} (hrun : s.run = false) {c : Command} (hc : c ≠ .reset) :
    (command c s).1 = s.setCode (command c s).1.code := by
  obtain ⟨-, hstep, hrunFor⟩ := haltedCoreTakesNoStep s hrun
  cases c with
  | reset => exact absurd rfl hc
  | load bytes address =>
    rcases Nat.lt_or_ge 65536 (address.toNat + bytes.length) with hbig | hfits
    · rw [command_load_exceeds hbig]; rfl
    · rw [command_load_fits hfits]; rfl
  | step => rw [hstep]; rfl
  | run n => rw [hrunFor n]; rfl
  | inspect elements => rw [command_inspect]; rfl

/-- Settles O42: any other command to a halted core leaves it with the RUN it had. -/
theorem onlyResetLeavesHalted : Obligations.OnlyResetLeavesHalted := by
  refine ⟨fun _ => rfl, fun c s hrun hafter => ?_⟩
  by_contra hc
  rw [command_halted hrun hc, State.setCode_run, hrun] at hafter
  exact Bool.false_ne_true hafter

/-! ### Several instances -/

theorem commandAt_present {k : Nat} {instances : List State} {s : State} (h : instances[k]? = some s) (c : Command) :
    commandAt k c instances = (instances.set k (command c s).1, some (command c s).2) := by
  simp only [commandAt, h]

theorem commandAt_absent {k : Nat} {instances : List State} (h : instances[k]? = none) (c : Command) :
    commandAt k c instances = (instances, none) := by
  simp only [commandAt, h]

/-- Settles O44: where the addressed index is in range the list is set at it alone, and where it is not nothing is done. -/
theorem instancesAreIsolated : Obligations.InstancesAreIsolated := by
  intro k c instances
  cases hk : instances[k]? with
  | none =>
    rw [commandAt_absent hk]
    exact ⟨rfl, fun _ _ => rfl, fun _ h => nomatch h⟩
  | some s =>
    obtain ⟨hlt, -⟩ := List.getElem?_eq_some_iff.1 hk
    rw [commandAt_present hk]
    refine ⟨List.length_set, fun j hj => List.getElem?_set_ne hj.symm, fun _ hs => ?addressed⟩
    case addressed =>
      cases hs
      exact ⟨List.getElem?_set_self hlt, rfl⟩

end Sys2Proof.Machine
end

/-! ## The statements of 60_exceptions.md

When a step takes the one exception, what taking it writes and leaves, and that its record stands until Reset. -/

section
namespace Sys2Proof.Machine

/-! ### The exception a step takes -/

/-- A step halts exactly on the opcodes outside the four (R86, R172). -/
theorem step_run_eq_false_iff {s t : State} (h : step s = .next t) :
    t.run = false ↔ codeRead s s.pc ∉ Config.implementedOpcodes := by
  constructor
  · intro hhalt
    obtain ⟨hrun, -⟩ | ⟨-, -, -, -, -, hop⟩ := step_run_record h
    · exact absurd (hrun.symm.trans hhalt) (by decide)
    · exact hop
  · intro hop
    rw [step_unimplemented (step_next_cases h).1 hop] at h
    cases h
    rfl

/-- A step that does not halt leaves the fault record alone (R33, R178). -/
theorem step_record_eq_of_run {s t : State} (h : step s = .next t) (hrun : t.run = true) :
    t.cause = s.cause ∧ t.fopc = s.fopc ∧ t.fpc = s.fpc := by
  obtain ⟨-, hrecord⟩ | ⟨hhalt, -⟩ := step_run_record h
  · exact hrecord
  · exact absurd (hrun.symm.trans hhalt) (by decide)

/-- Settles O17: a running core has a next state, the opcode at PC decides RUN, and only a halt writes the record. -/
theorem onlyUnimplementedOpcodesHalt : Obligations.OnlyUnimplementedOpcodesHalt := by
  intro s hrun
  obtain ⟨t, ht⟩ := step_running hrun
  exact ⟨t, ht, (step_run_eq_false_iff ht).trans not_mem_implementedOpcodes, step_record_eq_of_run ht⟩

/-! ### The default handler -/

/-- R107's `(PC - 1) mod 65536` in exact arithmetic. -/
theorem toNat_word_sub_one (w : Word) : ((w - 1).toNat : Int) = ((w.toNat : Int) - 1) % 65536 := by
  bv_omega

/-- Settles O28: the handler's equation, with R176's four writes. -/
theorem defaultHandlerWritesRecordAndRunAlone : Obligations.DefaultHandlerWritesRecordAndRunAlone := fun opcode s =>
  ⟨_, exec_unimplemented opcode s, toNat_word_sub_one s.pc, raiseUnimplementedOpcode_eq opcode (s.pc - 1) s⟩

/-- Settles O30: the default handler is none of the meanings that write A, PSW or PC, and none at all stores. -/
theorem defaultHandlerFrame : Obligations.DefaultHandlerFrame := by
  intro opcode s t h
  have keep := exec_keepsUnused h
  have ha : t.a = s.a := exec_a_eq h (by simp)
  have hpsw : t.psw = s.psw := exec_psw_eq h (by simp)
  have hpc : t.pc = s.pc := exec_pc_eq h (by simp)
  exact ⟨ha, keep.b, hpsw, keep.sp, keep.dptr, hpc, codeRead_congr keep.code, ramRead_congr keep.ram⟩

/-! ### The record of a halted core -/

/-- Along a session without Reset every state is halted, so that each command leaves all but CODE (R177, R178). -/
theorem session_halted {cs : List Command} {s : State} (hrun : s.run = false) (hcs : ∀ c ∈ cs, c ≠ .reset) :
    (session cs s).1 = s.setCode (session cs s).1.code := by
  induction cs generalizing s with
  | nil => rfl
  | cons c cs ih =>
    obtain ⟨hc, hrest⟩ := List.forall_mem_cons.1 hcs
    have hfirst : (command c s).1 = s.setCode (command c s).1.code := command_halted hrun hc
    have hhalted : (command c s).1.run = false := (congrArg State.run hfirst).trans hrun
    calc (session (c :: cs) s).1
      _ = (session cs (command c s).1).1 := rfl
      _ = (command c s).1.setCode (session cs (command c s).1).1.code := ih hhalted hrest
      _ = (s.setCode (command c s).1.code).setCode (session cs (command c s).1).1.code :=
        congrArg (State.setCode · _) hfirst
      _ = s.setCode (session (c :: cs) s).1.code := rfl

/-- Settles O43: from a halted state such a session replaces CODE alone. -/
theorem haltRecordStandsUntilReset : Obligations.HaltRecordStandsUntilReset :=
  fun _ _ hrun hcs => session_halted hrun hcs

end Sys2Proof.Machine
end

/-! ## The statements of 70_reset_and_hazards.md

The reset state read element by element, and Run over the CODE it leaves: zero everywhere. -/

section
namespace Sys2Proof.Machine

/-! ### Reset -/

@[simp] theorem codeRead_reset (a : Word) : codeRead State.reset a = 0x00 := Memory.read_nil a.toNat
@[simp] theorem ramRead_reset (a : Byte) : ramRead State.reset a = 0x00 := Memory.read_nil a.toNat

/-- Settles O2: it is the state the induction over sessions starts from. -/
theorem resetStateMeetsInvariant : Obligations.ResetStateMeetsInvariant := Tests.inv_reset

/-- Settles O1: Reset leaves the reset state, whose registers are R191's and whose memories list no byte (R70). -/
theorem resetSetsEveryElementFromAnyState : Obligations.ResetSetsEveryElementFromAnyState := fun s =>
  ⟨State.reset, onlyResetLeavesHalted.1 s, State.reset_a, State.reset_b, State.reset_psw, State.reset_sp, State.reset_pc,
    State.reset_dptr, State.reset_run, State.reset_cause, State.reset_fopc, State.reset_fpc, codeRead_reset, ramRead_reset⟩

/-! ### A run over a zero-filled CODE -/

/-- PC after `n` one-byte instructions, modulo 65536 (R12, R101). -/
theorem word_add_ofNat (w : Word) (n : Nat) : w + BitVec.ofNat 16 n = BitVec.ofNat 16 ((w.toNat + n) % 65536) := by
  apply BitVec.eq_of_toNat_eq
  simp only [BitVec.toNat_add, BitVec.toNat_ofNat]
  omega

/-- Settles O40: the run of 41_nop_and_move.md over such a CODE, for every budget. -/
theorem zeroFilledCodeNeverHalts : Obligations.ZeroFilledCodeNeverHalts := by
  intro n s hrun hzero
  rw [RunsFor, runFor_zeroCode n hrun hzero, word_add_ofNat]
  exact ⟨rfl, rfl, rfl⟩

end Sys2Proof.Machine
end

/-! ## The memories' canonical form, and the four meanings together

A canonical memory lists exactly the nonzero bytes it reads as, in address order, so its reads decide it; every
operation on a state writes a memory only by `Memory.write`, which keeps the form. -/

section
namespace Sys2Proof.Machine

/-! ### A canonical memory is what it reads as -/

/-- The cells of a canonical memory, read off its bytes. -/
theorem Memory.mem_iff_read {size : Nat} {m : Memory} (h : Memory.wf size m) (c : Host.Cell) :
    c ∈ m ↔ Memory.read m c.1 = c.2 ∧ c.2 ≠ 0 := by
  induction m with
  | nil =>
    refine iff_of_false List.not_mem_nil fun ⟨hzero, hne⟩ => hne ?_
    rw [← hzero, Memory.read_nil]
  | cons d m ih =>
    obtain ⟨hlt, ⟨-, hd⟩, hm⟩ := (Memory.wf_cons size d m).1 h
    rw [List.mem_cons, Memory.read_cons]
    split
    · next haddr =>
      have hc : c ∉ m := fun hmem => (hlt c hmem).ne haddr.symm
      constructor
      · rintro (rfl | hmem)
        · exact ⟨rfl, hd⟩
        · exact absurd hmem hc
      · exact fun ⟨hbyte, _⟩ => .inl (Prod.ext haddr hbyte.symm)
    · next haddr => rw [or_iff_right fun heq => haddr (congrArg Prod.fst heq), ih hm]

/-- In strictly rising order of address, a set of cells has one listing. -/
theorem Memory.eq_of_mem_iff {size : Nat} {m n : Memory} (hm : Memory.wf size m) (hn : Memory.wf size n)
    (h : ∀ c, c ∈ m ↔ c ∈ n) : m = n := by
  have : Std.Asymm fun x y : Host.Cell => x.1 < y.1 := ⟨fun _ _ => Nat.lt_asymm⟩
  exact hm.1.eq_of_mem_iff hn.1 h

theorem Memory.eq_of_read_eq {size : Nat} {m n : Memory} (hm : Memory.wf size m) (hn : Memory.wf size n)
    (h : ∀ a < size, Memory.read m a = Memory.read n a) : m = n := by
  have hread (a : Nat) : Memory.read m a = Memory.read n a := by
    rcases Nat.lt_or_ge a size with ha | ha
    · exact h a ha
    · rw [Memory.read_beyond hm ha, Memory.read_beyond hn ha]
  refine Memory.eq_of_mem_iff hm hn fun c => ?_
  rw [Memory.mem_iff_read hm, Memory.mem_iff_read hn, hread]

/-- Settles O7: every address in range is some word's, or some byte's, value, and canonical memories are decided by
their reads there. -/
theorem canonicalMemoriesThatReadAlikeAreEqual : Obligations.CanonicalMemoriesThatReadAlikeAreEqual := by
  rintro s t ⟨hsCode, hsRam⟩ ⟨htCode, htRam⟩ ⟨hcode, hram⟩
  exact ⟨Memory.eq_of_read_eq hsCode htCode fun a ha => (hcode (BitVec.ofNatLT a ha)).symm,
    Memory.eq_of_read_eq hsRam htRam fun a ha => (hram (BitVec.ofNatLT a ha)).symm⟩

/-! ### What keeps the canonical form -/

theorem step_keeps_canonical (s t : State) (hs : Canonical s) (h : step s = .next t) : Canonical t := by
  have keep := step_keepsUnused h
  rwa [Canonical, keep.code, keep.ram]

theorem load_keeps_canonical (s : State) (bytes : List Byte) (address : Word) (hs : Canonical s)
    (hfits : address.toNat + bytes.length ≤ 65536) : Canonical (s.setCode (s.code.writeBytes address.toNat bytes)) :=
  ⟨Memory.wf_writeBytes bytes hs.1 hfits, hs.2⟩

theorem command_keeps_canonical (c : Command) (s : State) (hs : Canonical s) : Canonical (command c s).1 :=
  command_preserves step_keeps_canonical Tests.inv_reset.canonical load_keeps_canonical c s hs

theorem ramWrite_keeps_canonical {s : State} (hs : Canonical s) (a v : Byte) : Canonical (ramWrite s a v) :=
  ⟨hs.1, Memory.wf_write hs.2 a.isLt v⟩

theorem push_keeps_canonical {s : State} (hs : Canonical s) (v : Byte) : Canonical (push s v) :=
  ramWrite_keeps_canonical (s := s.setSp (pushAddress s.sp)) hs (pushAddress s.sp) v

/-- Settles O6: a step writes no memory, a load and a push write inside theirs, and a pop moves SP alone. -/
theorem canonicalMemoriesAreKept : Obligations.CanonicalMemoriesAreKept := fun s hs =>
  ⟨fun t => step_keeps_canonical s t hs, fun c => command_keeps_canonical c s hs, push_keeps_canonical hs,
    by rw [pop_eq]; exact hs⟩

/-! ### The four meanings in every state -/

/-- Settles O22: each meaning's equation, with ADD's effect and SJMP's target in exact arithmetic. -/
theorem implementedInstructionsComplete : Obligations.ImplementedInstructionsComplete :=
  ⟨exec_nop, exec_movAImm,
    fun d s => ⟨_, exec_addAImm d s, exec_addAImm_addEffect (exec_addAImm d s), rfl⟩,
    fun rel8 s => ⟨_, exec_sjmpRel rel8 s, toNat_jumpTarget s.pc rel8, rfl⟩⟩

end Sys2Proof.Machine
end
